-- ==== Sys2Proof/Word.lean ====
section
/-! DEFINITION. The machine's two word types (R6, R7, R14). -/

namespace Sys2Proof

/-- A register cell, an address held in a register, an immediate: 16 bits, unsigned (R6, R14). -/
abbrev Word := BitVec 16

/-- The smallest addressable unit of memory, and one byte of an instruction word (R34, R52). -/
abbrev Byte := BitVec 8

end Sys2Proof
end

