-- ==== Sys2Proof/Syntax.lean ====
section
/-! DEFINITION. The instruction set as terms: register names, mnemonics, operand roles, instructions (R2, R9, R10). -/

namespace Sys2Proof

/-- `StoredReg` of R9: the twelve registers that have a 16-bit cell (R13). -/
inductive StoredReg where
  | gp0 | gp1 | gp2 | gp3 | gp4 | gp5 | gp6 | gp7
  | ans | dvc | pc | sp
deriving DecidableEq, Repr, Inhabited

/-- `Reg` of R9: the thirteen register names. They are the stored ones and the pseudo-register `out`,
which has no cell (R13, R18). -/
inductive Reg where
  | cell (c : StoredReg)
  | out
deriving DecidableEq, Repr, Inhabited

/-- The twelve mnemonics of R2, in the order of its list. -/
inductive Mnemonic where
  | halt | noop | add | sub | mul | copy | jump | put | push | pop | write | read
deriving DecidableEq, Repr, Inhabited

/-- The role of a register operand in the grammar of R10 and R70. A forbidden-operand error carries it (R94, R115). -/
inductive Role where
  | x | y | src | dst | addr | cond
deriving DecidableEq, Repr, Inhabited

/-- An instruction term (R10): one constructor per row of spec/opcode_table.json. Any register name may
stand in any register position (R57). -/
inductive Instr where
  | halt
  | noop
  | add (x y : Reg)
  | sub (x y : Reg)
  | mul (x y : Reg)
  | copy (src dst : Reg)
  | jump (addr cond : Reg)
  | put (value : Word) (dst : Reg)
  | push (src : Reg)
  | pop (dst : Reg)
  | write (src addr : Reg)
  | read (addr dst : Reg)
deriving DecidableEq, Repr, Inhabited

/-- The four word formats of R54. -/
inductive Format where
  | n | rr | r | ir
deriving DecidableEq, Repr, Inhabited

/-- Every stored register, in the order of R13's list without `out`. -/
def StoredReg.all : List StoredReg :=
  [.gp0, .gp1, .gp2, .gp3, .gp4, .gp5, .gp6, .gp7, .ans, .dvc, .pc, .sp]

/-- Every register name, in the order of the document's token list (R13, R71). -/
def Reg.all : List Reg :=
  [.cell .gp0, .cell .gp1, .cell .gp2, .cell .gp3, .cell .gp4, .cell .gp5, .cell .gp6, .cell .gp7,
   .cell .ans, .cell .dvc, .out, .cell .pc, .cell .sp]

/-- Every mnemonic, in the order of R2. -/
def Mnemonic.all : List Mnemonic :=
  [.halt, .noop, .add, .sub, .mul, .copy, .jump, .put, .push, .pop, .write, .read]

/-- The mnemonic of an instruction term (R10). -/
def Instr.mnemonic : Instr → Mnemonic
  | .halt => .halt
  | .noop => .noop
  | .add _ _ => .add
  | .sub _ _ => .sub
  | .mul _ _ => .mul
  | .copy _ _ => .copy
  | .jump _ _ => .jump
  | .put _ _ => .put
  | .push _ => .push
  | .pop _ => .pop
  | .write _ _ => .write
  | .read _ _ => .read

/-- The word format of each mnemonic (R54, R58). -/
def Mnemonic.format : Mnemonic → Format
  | .halt => .n
  | .noop => .n
  | .add => .rr
  | .sub => .rr
  | .mul => .rr
  | .copy => .rr
  | .jump => .rr
  | .put => .ir
  | .push => .r
  | .pop => .r
  | .write => .rr
  | .read => .rr

end Sys2Proof
end

