-- ==== Sys2Proof/Config.lean ====
section
/-! DEFINITION. The sizes of R6 and the machine's parameters: the two encoding maps (R58, R59) and the launch values (R32). -/

namespace Sys2Proof

/-- Bytes of memory; addresses are 0 to one less (R6, R34). -/
def Config.memorySize : Nat := 65536

/-- The largest value of a 16-bit cell and the largest address (R6, R14). -/
def Config.maxWord : Nat := 65535

/-- Bytes of an instruction word, and the step of the pc advance (R6, R53, R91). -/
def Config.instrBytes : Nat := 4

/-- OPCODE_MAP and REG_ID_MAP, the parameters of R58 and R59. The document gives only the opcode of `halt`. -/
structure Maps where
  opcode : Mnemonic → Byte
  regId : Reg → Byte

/-- The launch values INIT_GP, INIT_ANS and INIT_DVC of R32: the document gives none (D5). -/
structure Launch where
  gp0 : Word
  gp1 : Word
  gp2 : Word
  gp3 : Word
  gp4 : Word
  gp5 : Word
  gp6 : Word
  gp7 : Word
  ans : Word
  dvc : Word
deriving DecidableEq, Repr, Inhabited

end Sys2Proof
end

