-- ==== Sys2Proof/WellFormed.lean ====
section
/-! DEFINITION. What the spec asks of the encoding maps (R58, R59), of a program's size (R6, R132) and of an instruction term (R10). -/

namespace Sys2Proof

/-- R58 constraint 1: the opcode of `halt` is 0. -/
def Maps.haltIsZero (m : Maps) : Bool := m.opcode .halt == 0#8

/-- R58 constraint 2: the twelve mnemonics take twelve distinct bytes. -/
def Maps.opcodesDistinct (m : Maps) : Bool := decide (Mnemonic.all.map m.opcode).Nodup

/-- R59: the thirteen register names take thirteen distinct bytes. -/
def Maps.regIdsDistinct (m : Maps) : Bool := decide (Reg.all.map m.regId).Nodup

/-- The maps R58 and R59 admit. -/
def Maps.admissible (m : Maps) : Bool := m.haltIsZero && m.opcodesDistinct && m.regIdsDistinct

/-- Every instruction term is well-formed: the types of its operands hold all that R10 asks ("Any `Reg` may be written
in any register operand position"), and `encode` is total on terms (R66). So this check refuses no term. -/
def Instr.wellFormed : Instr → Bool
  | .halt => true
  | .noop => true
  | .add _ _ => true
  | .sub _ _ => true
  | .mul _ _ => true
  | .copy _ _ => true
  | .jump _ _ => true
  | .put _ _ => true
  | .push _ => true
  | .pop _ => true
  | .write _ _ => true
  | .read _ _ => true

/-- A binary program that `load` accepts: under 65536 bytes (R6, R132). -/
def fitsMemory (program : List Byte) : Bool := decide (program.length < Config.memorySize)

end Sys2Proof
end

