-- ==== Sys2Proof/Decode.lean ====
section
/-! DEFINITION. The binary codec: the default maps (R58, R59), the instruction word (R52), decode (R60 to R64) and encode (R66). -/

namespace Sys2Proof

/-- The default OPCODE_MAP of R58. Only `halt = 0` is the document's.
DESIGN CHOICE (the spec's own default, D1; assumption log 2); unsafe for a claim about concrete words. -/
def defaultOpcode : Mnemonic → Byte
  | .halt => 0x00
  | .noop => 0x01
  | .add => 0x02
  | .sub => 0x03
  | .mul => 0x04
  | .copy => 0x05
  | .jump => 0x06
  | .put => 0x07
  | .push => 0x08
  | .pop => 0x09
  | .write => 0x0A
  | .read => 0x0B

/-- The default REG_ID_MAP of R59. The document gives no id.
DESIGN CHOICE (the spec's own default, D2; assumption log 3); unsafe for a claim about concrete words. -/
def defaultRegId : Reg → Byte
  | .cell .gp0 => 0x00
  | .cell .gp1 => 0x01
  | .cell .gp2 => 0x02
  | .cell .gp3 => 0x03
  | .cell .gp4 => 0x04
  | .cell .gp5 => 0x05
  | .cell .gp6 => 0x06
  | .cell .gp7 => 0x07
  | .cell .ans => 0x08
  | .cell .dvc => 0x09
  | .out => 0x0A
  | .cell .pc => 0x0B
  | .cell .sp => 0x0C

/-- The default maps of R58 and R59, those of spec/opcode_table.json. -/
def defaultMaps : Maps := { opcode := defaultOpcode, regId := defaultRegId }

/-- An instruction word: its four bytes, `b0` at the lowest address (R52). -/
structure InstrWord where
  b0 : Byte
  b1 : Byte
  b2 : Byte
  b3 : Byte
deriving DecidableEq, Repr, Inhabited

/-- The bytes of a word in memory order (R52). -/
def InstrWord.bytes (w : InstrWord) : List Byte := [w.b0, w.b1, w.b2, w.b3]

/-- The ways `decode` fails, by name (R60). -/
inductive DecodeStop where
  /-- Byte 0 is no mnemonic's opcode (R62). The document's own error. -/
  | decodeError (b : Byte)
  /-- A register byte is no register's id (R64, D4). The spec's model fault; safe: the model stops. -/
  | badRegister (b : Byte)
  /-- A known opcode other than `halt` with a non-zero reserved byte (R63, D3). The spec's refusal; safe: the model stops. -/
  | nonZeroReserved
deriving DecidableEq, Repr, Inhabited

/-- The mnemonic whose opcode is `b`, if there is one (R60). -/
def Maps.mnemonicOf (m : Maps) (b : Byte) : Option Mnemonic :=
  Mnemonic.all.find? (fun k => m.opcode k == b)

/-- `reg(b)` of R60: the register whose id is `b`, if there is one. -/
def Maps.regOf (m : Maps) (b : Byte) : Option Reg :=
  Reg.all.find? (fun r => m.regId r == b)

/-- Format N of R60: no operand, bytes 1 to 3 reserved. -/
def decodeN (i : Instr) (w : InstrWord) : Except DecodeStop Instr :=
  if w.b1 = 0#8 ∧ w.b2 = 0#8 ∧ w.b3 = 0#8 then .ok i else .error .nonZeroReserved

/-- Format RR of R60: the registers of bytes 1 and 2 in turn, then the reserved byte 3. -/
def decodeRR (m : Maps) (mk : Reg → Reg → Instr) (w : InstrWord) : Except DecodeStop Instr :=
  match m.regOf w.b1 with
  | none => .error (.badRegister w.b1)
  | some r1 =>
    match m.regOf w.b2 with
    | none => .error (.badRegister w.b2)
    | some r2 => if w.b3 = 0#8 then .ok (mk r1 r2) else .error .nonZeroReserved

/-- Format R of R60: the register of byte 1, then the reserved bytes 2 and 3. -/
def decodeR (m : Maps) (mk : Reg → Instr) (w : InstrWord) : Except DecodeStop Instr :=
  match m.regOf w.b1 with
  | none => .error (.badRegister w.b1)
  | some r => if w.b2 = 0#8 ∧ w.b3 = 0#8 then .ok (mk r) else .error .nonZeroReserved

/-- Format IR of R60: the immediate `b1 + 256*b2` (R56) and the register of byte 3. No reserved byte. -/
def decodeIR (m : Maps) (mk : Word → Reg → Instr) (w : InstrWord) : Except DecodeStop Instr :=
  match m.regOf w.b3 with
  | none => .error (.badRegister w.b3)
  | some r => .ok (mk (w.b2 ++ w.b1) r)

/-- The operands of a word whose opcode is the mnemonic's (R60, operand order of R55). -/
def decodeOperands (m : Maps) (k : Mnemonic) (w : InstrWord) : Except DecodeStop Instr :=
  match k with
  | .halt => .ok .halt
  | .noop => decodeN .noop w
  | .add => decodeRR m .add w
  | .sub => decodeRR m .sub w
  | .mul => decodeRR m .mul w
  | .copy => decodeRR m .copy w
  | .jump => decodeRR m .jump w
  | .put => decodeIR m .put w
  | .push => decodeR m .push w
  | .pop => decodeR m .pop w
  | .write => decodeRR m .write w
  | .read => decodeRR m .read w

/-- `decode` of R60, total on any four bytes: byte 0 = 0 is `halt` whatever follows (R61), an unknown byte 0 is a decode
error (R62), then the operands. -/
def decode (m : Maps) (w : InstrWord) : Except DecodeStop Instr :=
  if w.b0 = 0#8 then .ok .halt
  else
    match m.mnemonicOf w.b0 with
    | none => .error (.decodeError w.b0)
    | some k => decodeOperands m k w

/-- The low byte of a 16-bit value (R7, R38). -/
def loByte (v : Word) : Byte := v.extractLsb' 0 8

/-- The high byte of a 16-bit value (R7, R38). -/
def hiByte (v : Word) : Byte := v.extractLsb' 8 8

/-- `encode` of R66: ids and immediate as in R55, 0 in every other byte. -/
def encode (m : Maps) (i : Instr) : InstrWord :=
  match i with
  | .halt => { b0 := m.opcode .halt, b1 := 0#8, b2 := 0#8, b3 := 0#8 }
  | .noop => { b0 := m.opcode .noop, b1 := 0#8, b2 := 0#8, b3 := 0#8 }
  | .add x y => { b0 := m.opcode .add, b1 := m.regId x, b2 := m.regId y, b3 := 0#8 }
  | .sub x y => { b0 := m.opcode .sub, b1 := m.regId x, b2 := m.regId y, b3 := 0#8 }
  | .mul x y => { b0 := m.opcode .mul, b1 := m.regId x, b2 := m.regId y, b3 := 0#8 }
  | .copy src dst => { b0 := m.opcode .copy, b1 := m.regId src, b2 := m.regId dst, b3 := 0#8 }
  | .jump addr cond => { b0 := m.opcode .jump, b1 := m.regId addr, b2 := m.regId cond, b3 := 0#8 }
  | .put value dst => { b0 := m.opcode .put, b1 := loByte value, b2 := hiByte value, b3 := m.regId dst }
  | .push src => { b0 := m.opcode .push, b1 := m.regId src, b2 := 0#8, b3 := 0#8 }
  | .pop dst => { b0 := m.opcode .pop, b1 := m.regId dst, b2 := 0#8, b3 := 0#8 }
  | .write src addr => { b0 := m.opcode .write, b1 := m.regId src, b2 := m.regId addr, b3 := 0#8 }
  | .read addr dst => { b0 := m.opcode .read, b1 := m.regId addr, b2 := m.regId dst, b3 := 0#8 }

/-- A binary program: the encodings of its instructions, in order (R66). -/
def encodeProgram (m : Maps) (program : List Instr) : List Byte :=
  program.flatMap (fun i => (encode m i).bytes)

/-- The word whose 32 bits are those of `w` below bit `nbits` and 0 above, bit 0 the lowest bit of byte 0 (R52). -/
def InstrWord.ofBits (nbits w : Nat) : InstrWord :=
  let v := w % 2 ^ nbits
  { b0 := BitVec.ofNat 8 v
    b1 := BitVec.ofNat 8 (v / 2 ^ 8)
    b2 := BitVec.ofNat 8 (v / 2 ^ 16)
    b3 := BitVec.ofNat 8 (v / 2 ^ 24) }

/-- What the decoder reads, under the default maps, from the word whose bits spec/opcode_table.json numbers. -/
def decodeTableWord (nbits w : Nat) : Option Instr :=
  match decode defaultMaps (InstrWord.ofBits nbits w) with
  | .ok i => some i
  | .error _ => none

end Sys2Proof
end

