-- ==== Sys2Proof/Machine/Launch.lean ====
section
/-! DEFINITION. The values `State.reset` takes where the spec states none: the launch values (D5) and the first device supply (D13). -/

namespace Sys2Proof.Machine

/-- The launch values of `State.reset`: 0 in every register.
DESIGN CHOICE (assumption log 1): R32 gives no value; unsafe for a claim that rests on one. -/
def defaultLaunch : Launch :=
  { gp0 := 0, gp1 := 0, gp2 := 0, gp3 := 0, gp4 := 0, gp5 := 0, gp6 := 0, gp7 := 0, ans := 0, dvc := 0 }

/-- Whether the host supplies a device in each slot at the first step after reset.
DESIGN CHOICE (assumption log 13): both present, as in the programs of spec/95_test_vectors.md; unsafe for a claim that rests on it. -/
def defaultSlotPresent : Bool := true

end Sys2Proof.Machine
end

