-- ==== Sys2Proof/Machine/State.lean ====
section
/-! DEFINITION. The state of the core (R13 to R32), the errors of a step (R115), the reasons a step stops, and the state after reset (R131). -/

namespace Sys2Proof.Machine

/-- The twelve 16-bit storage cells of the register file (R13, R14). `out` has none (R18). -/
structure Regs where
  gp0 : Word
  gp1 : Word
  gp2 : Word
  gp3 : Word
  gp4 : Word
  gp5 : Word
  gp6 : Word
  gp7 : Word
  ans : Word
  dvc : Word
  pc : Word
  sp : Word
deriving DecidableEq, Repr, Inhabited

/-- The two device slots (R6, R23). -/
inductive Slot where
  | slot0 | slot1
deriving DecidableEq, Repr, Inhabited

/-- The event `DeviceWrite(k, v)` of the output history (R29). -/
structure DeviceEvent where
  slot : Slot
  value : Word
deriving DecidableEq, Repr, Inhabited

/-- DEVICE_PRESENT of R99: which slots the host supplies in one step call. -/
structure DeviceSlots where
  slot0 : Bool
  slot1 : Bool
deriving DecidableEq, Repr, Inhabited

/-- The errors a step can return: rows 4 to 15 of R115. Rows 1 to 3 belong to the assembler and to `load`. -/
inductive Error where
  /-- Row 4: a generic read or write of `out` (R16, R17). -/
  | pseudoRegister (r : Reg)
  /-- Row 5: byte 0 of the fetched word is no opcode (R62). -/
  | decodeError (b : Byte)
  /-- Row 6: a register not allowed in an operand position (R94, R95, R116). -/
  | forbidden (op : Mnemonic) (role : Role) (r : Reg)
  /-- Row 7: `add` or `mul` above 65535, with both operand values (R96). -/
  | overflow (a b : Word)
  /-- Row 8: `sub` below 0, with both operand values (R96). -/
  | underflow (a b : Word)
  /-- Row 9: `push` with `sp = 0` (R111). -/
  | stackOverflow
  /-- Row 10: `pop` with `sp = 65534` (R112). -/
  | stackUnderflow
  /-- Row 11, model fault: a register byte that is no id (R64). -/
  | badRegister (b : Byte)
  /-- Row 12, model fault: an access that runs past address 65535 (R36). -/
  | memOutOfRange (a : Word)
  /-- Row 13, model fault: `push` at `sp = 1`, `pop` at `sp = 65535` (R111, R112). -/
  | spOutOfRange (sp : Word)
  /-- Row 14, model fault: the advance from `pc = 65532` (R91). -/
  | pcOverflow (pc : Word)
  /-- Row 15, model fault: `copy x out` to a slot with no device (R99). -/
  | noDevice (k : Slot)
deriving DecidableEq, Repr, Inhabited

/-- Why a step stops with a fault. The first five are the model faults of R115, after which the spec leaves the state
unknown (D16), so the step gives none. -/
inductive Fault where
  /-- Raised by the step's decode (R64, D4, assumption log 5). Safe: the model stops where the document is silent. -/
  | badRegister (b : Byte)
  /-- Raised by `write`, `read`, `push`, `pop` at address 65535, and by a fetch from a `pc` above 65532, which no run
  reaches (R36, D6, assumption logs 6 and 24). Safe: the model stops where the document is silent. -/
  | memOutOfRange (a : Word)
  /-- Raised by `push` at `sp = 1` and `pop` at `sp = 65535` (R111, R112, D7, assumption log 7). Safe: the model stops. -/
  | spOutOfRange (sp : Word)
  /-- Raised by the advance from `pc = 65532` (R91, D8, assumption log 8). Safe: the model stops. -/
  | pcOverflow (pc : Word)
  /-- Raised by `copy x out` to an absent device (R99, D13, assumption log 13). Safe: the model stops. -/
  | noDevice (k : Slot)
  /-- Raised by `step` in a state whose status is faulted(e): "takes no further step" (R30, D15, assumption log 15).
  Safe for claims about error-free runs; the model says nothing of a step after an error. -/
  | afterError (e : Error)
deriving DecidableEq, Repr, Inhabited

/-- Why the model gives a step no meaning. -/
inductive Refusal where
  /-- Raised by an arm of `exec` whose instruction has no meaning yet: none in this model. Safe: the model stops. -/
  | notModelled (mnemonic : String)
  /-- `NonZeroReserved` of R117: raised by the step's decode (R63, D3, assumption log 4), and again by a step in a state
  whose status records it (R30). Safe: the model stops. -/
  | nonZeroReserved
deriving DecidableEq, Repr, Inhabited

/-- The model status of R30. -/
inductive Status where
  | running
  | faulted (e : Error)
  | refused (n : Refusal)
deriving DecidableEq, Repr, Inhabited

/-- Memory: (address, byte) pairs, addresses strictly rising, no byte equal to what an unlisted address reads as (R31). -/
abbrev Memory := List Host.Cell

/-- Everything the spec gives the core (R13 to R31), and the host's device supply (R99, assumption log 13). -/
structure State where
  /-- The register file (R13). -/
  regs : Regs
  /-- The super-state: `false` powered, `true` halted (R27). -/
  halted : Bool
  /-- The model status (R30). -/
  status : Status
  /-- The 65536 bytes of memory (R31). -/
  mem : Memory
  /-- The console buffer, first appended value first (R28). -/
  console : List Word
  /-- The output history, first event first (R29). -/
  history : List DeviceEvent
  /-- DEVICE_PRESENT for the next step call (R99). The model's own field. -/
  devices : DeviceSlots
  /-- The supplies of the step calls after the next one, in order; when none is left the supply stays as it is (R136).
  The model's own field. -/
  schedule : List DeviceSlots
deriving DecidableEq, Repr, Inhabited

/-- The state after reset with the given launch values and device supply (R32, R131, R136). -/
def State.launch (l : Launch) (devices : DeviceSlots) (schedule : List DeviceSlots) : State :=
  { regs :=
      { gp0 := l.gp0, gp1 := l.gp1, gp2 := l.gp2, gp3 := l.gp3, gp4 := l.gp4, gp5 := l.gp5, gp6 := l.gp6, gp7 := l.gp7
        ans := l.ans, dvc := l.dvc, pc := 0, sp := 65534 }
    halted := false
    status := .running
    mem := []
    console := []
    history := []
    devices := devices
    schedule := schedule }

/-- The machine right after reset (R131), with the launch values and the supply of Machine/Launch.lean. -/
def State.reset : State :=
  State.launch defaultLaunch { slot0 := defaultSlotPresent, slot1 := defaultSlotPresent } []

end Sys2Proof.Machine
end

