-- ==== Sys2Proof/Machine/Ops.lean ====
section
/-! DEFINITION. The named operations every meaning uses: raising an error (R93), the register file (R16, R17), memory (R36), fetch (R89),
the pc advance (R91), the device multiplexer (R98 to R100). -/

namespace Sys2Proof.Machine

/-- What a step or a meaning answers. -/
abbrev Result := Host.Outcome State Fault Refusal

/-! ### Raising an error -/

/-- The model faults of R115 (rows 11 to 15), as the reason the step stops with; `none` for the document's own errors. -/
def Error.fault? : Error → Option Fault
  | .pseudoRegister _ => none
  | .decodeError _ => none
  | .forbidden _ _ _ => none
  | .overflow _ _ => none
  | .underflow _ _ => none
  | .stackOverflow => none
  | .stackUnderflow => none
  | .badRegister b => some (.badRegister b)
  | .memOutOfRange a => some (.memOutOfRange a)
  | .spOutOfRange v => some (.spOutOfRange v)
  | .pcOverflow p => some (.pcOverflow p)
  | .noDevice k => some (.noDevice k)

/-- The model status changes (R30). -/
def State.setStatus (st : Status) (s : State) : State := { s with status := st }

/-- `raise E(info)` of R8: the step ends where the error is raised. After one of the document's own errors the state is
as it stands, the `pc` still at the failing instruction, with the status `faulted(e)` (R30, R93, R120, R121; assumption
log 15). After a model fault the spec leaves the state unknown, so the step gives no state (D16; assumption log 16). -/
def raise (e : Error) (s : State) : Result :=
  match e.fault? with
  | some f => .fault f
  | none => .next (s.setStatus (.faulted e))

/-- Go on with the value of a check, or raise its error in the state `s` (R93). -/
def orRaise {α : Type} (s : State) (x : Except Error α) (k : α → Result) : Result :=
  match x with
  | .error e => raise e s
  | .ok a => k a

/-! ### The register file -/

/-- The value of a cell (R13, R14). -/
def Regs.get (r : Regs) : StoredReg → Word
  | .gp0 => r.gp0
  | .gp1 => r.gp1
  | .gp2 => r.gp2
  | .gp3 => r.gp3
  | .gp4 => r.gp4
  | .gp5 => r.gp5
  | .gp6 => r.gp6
  | .gp7 => r.gp7
  | .ans => r.ans
  | .dvc => r.dvc
  | .pc => r.pc
  | .sp => r.sp

/-- The register file with one cell changed (R13: no register shares storage with another). -/
def Regs.set (r : Regs) (c : StoredReg) (v : Word) : Regs :=
  match c with
  | .gp0 => { r with gp0 := v }
  | .gp1 => { r with gp1 := v }
  | .gp2 => { r with gp2 := v }
  | .gp3 => { r with gp3 := v }
  | .gp4 => { r with gp4 := v }
  | .gp5 => { r with gp5 := v }
  | .gp6 => { r with gp6 := v }
  | .gp7 => { r with gp7 := v }
  | .ans => { r with ans := v }
  | .dvc => { r with dvc := v }
  | .pc => { r with pc := v }
  | .sp => { r with sp := v }

/-- The value of a cell of the state. -/
def State.cell (s : State) (c : StoredReg) : Word := s.regs.get c

/-- The state with one cell changed. -/
def State.setCell (c : StoredReg) (v : Word) (s : State) : State := { s with regs := s.regs.set c v }

/-- The super-state changes (R27). -/
def State.setHalted (b : Bool) (s : State) : State := { s with halted := b }

/-- The generic read `x[r]` (R16). -/
def readReg (r : Reg) (s : State) : Except Error Word :=
  match r with
  | .out => .error (.pseudoRegister .out)
  | .cell c => .ok (s.cell c)

/-- The generic write `x[r] <- v` (R17). -/
def writeReg (r : Reg) (v : Word) (s : State) : Except Error State :=
  match r with
  | .out => .error (.pseudoRegister .out)
  | .cell c => .ok (s.setCell c v)

/-! ### Memory -/

/-- What an address that is not listed reads as: memory is "zero-initialized" (R31, R32). -/
def Memory.unlisted : Byte := 0#8

/-- The byte at an address (R34). -/
def Memory.read : Memory → Nat → Byte
  | [], _ => Memory.unlisted
  | (k, b) :: rest, a => if k = a then b else Memory.read rest a

/-- One byte stored, in the canonical form: rising addresses, no entry equal to what an unlisted address reads as. -/
def Memory.write : Memory → Nat → Byte → Memory
  | [], a, v => if v = Memory.unlisted then [] else [(a, v)]
  | (k, b) :: rest, a, v =>
    if a < k then (if v = Memory.unlisted then (k, b) :: rest else (a, v) :: (k, b) :: rest)
    else if a = k then (if v = Memory.unlisted then rest else (a, v) :: rest)
    else (k, b) :: Memory.write rest a v

/-- The canonical form from an address on: addresses rising from `lo`, all below 65536, no unlisted value. -/
def Memory.wfFrom (lo : Nat) : Memory → Bool
  | [] => true
  | (k, b) :: rest =>
    decide (lo ≤ k) && decide (k < Config.memorySize) && decide (b ≠ Memory.unlisted) && Memory.wfFrom (k + 1) rest

/-- The canonical form of memory (R31: addresses 0 to 65535). -/
def Memory.wf (m : Memory) : Bool := Memory.wfFrom 0 m

/-- The state with another memory. -/
def State.setMem (m : Memory) (s : State) : State := { s with mem := m }

/-- One byte of the state's memory stored. -/
def State.setByte (a : Nat) (v : Byte) (s : State) : State := s.setMem (Memory.write s.mem a v)

/-- The byte at an address of the state's memory. -/
def State.byte (s : State) (a : Nat) : Byte := Memory.read s.mem a

/-- Bytes stored one after the other from an address on (R132). -/
def Memory.writeBytes (m : Memory) (a : Nat) : List Byte → Memory
  | [] => m
  | b :: rest => Memory.writeBytes (Memory.write m a b) (a + 1) rest

/-- Whether the `n` bytes from `a` on lie inside memory: the test of MemRead and MemWrite (R36). -/
def inRange (a : Word) (n : Nat) : Bool := decide (a.toNat + n - 1 ≤ Config.maxWord)

/-- `MemRead(a, 2)`: the low byte is at `a`, the high byte at `a + 1` (R36, R38, R39). -/
def load16 (a : Word) (s : State) : Except Error Word :=
  if inRange a 2 then .ok (s.byte (a.toNat + 1) ++ s.byte a.toNat) else .error (.memOutOfRange a)

/-- `MemWrite(a, 2, v)`: the low byte goes to `a`, the high byte to `a + 1` (R36, R38, R39). -/
def store16 (a v : Word) (s : State) : Except Error State :=
  if inRange a 2 then .ok ((s.setByte a.toNat (loByte v)).setByte (a.toNat + 1) (hiByte v))
  else .error (.memOutOfRange a)

/-! ### Fetch and advance -/

/-- The word at `pc .. pc+3` (R37, R52, R89). The range check of R36 fails only where `pc` is above 65532. -/
def fetch (s : State) : Except Error InstrWord :=
  let a := s.cell .pc
  if inRange a 4 then
    .ok { b0 := s.byte a.toNat, b1 := s.byte (a.toNat + 1), b2 := s.byte (a.toNat + 2), b3 := s.byte (a.toNat + 3) }
  else .error (.memOutOfRange a)

/-- A word's four bytes stored at `pc .. pc+3`, where they lie inside memory: what the host's load leaves there. -/
def placeWord (w : InstrWord) (s : State) : State :=
  if inRange (s.cell .pc) 4 then s.setMem (Memory.writeBytes s.mem (s.cell .pc).toNat w.bytes) else s

/-- `advance()` of R91: the `pc` as execute left it, plus 4. -/
def advance (s : State) : Except Error State :=
  if (s.cell .pc).toNat + Config.instrBytes > Config.maxWord then .error (.pcOverflow (s.cell .pc))
  else .ok (s.setCell .pc (s.cell .pc + 4#16))

/-! ### The device multiplexer -/

/-- DEVICE_PRESENT[k] (R99). -/
def DeviceSlots.present (d : DeviceSlots) : Slot → Bool
  | .slot0 => d.slot0
  | .slot1 => d.slot1

/-- An event appended to the output history (R29). -/
def recordEvent (e : DeviceEvent) (s : State) : State := { s with history := s.history ++ [e] }

/-- `DeviceWrite(k, v)` of R99: deliver the value to the device in slot `k` and record the event. -/
def deviceWrite (k : Slot) (v : Word) (s : State) : Except Error State :=
  if s.devices.present k then .ok (recordEvent { slot := k, value := v } s)
  else .error (.noDevice k)

/-- `ConsoleAppend(v)` of R100. -/
def consoleAppend (v : Word) (s : State) : State := { s with console := s.console ++ [v] }

/-- `OutWrite(v, devices)` of R98: the whole of `dvc` selects the one sink. -/
def outWrite (v : Word) (s : State) : Except Error State :=
  if s.cell .dvc = 0#16 then deviceWrite .slot0 v s
  else if s.cell .dvc = 1#16 then deviceWrite .slot1 v s
  else .ok (consoleAppend v s)

/-- The host supplies the slots of the next step call (R102): the schedule's next entry, or the same ones again. -/
def nextSupply (s : State) : State :=
  match s.schedule with
  | [] => s
  | d :: rest => { s with devices := d, schedule := rest }

/-- The host supplies the slots of this step call: the argument of `step(devices)` (R87, R102). -/
def supply (d : DeviceSlots) (s : State) : State := { s with devices := d }

end Sys2Proof.Machine
end

