-- ==== Sys2Proof/Machine/Flags.lean ====
section
/-! DEFINITION. The machine has no flags (R26). Here are the conditions that stand where other machines have them: the range tests of
the ALU, which raise errors, and the zero test of `jump`; and the ALU itself (R96). -/

namespace Sys2Proof.Machine

/-- The ALU's three operations (R96). -/
inductive AluOp where
  | add | sub | mul
deriving DecidableEq, Repr, Inhabited

/-- `a + b` leaves 0..65535 (R96). -/
def sumOverflows (a b : Word) : Bool := decide (a.toNat + b.toNat > Config.maxWord)

/-- `a - b` leaves 0..65535 (R96). -/
def differenceUnderflows (a b : Word) : Bool := decide (b.toNat > a.toNat)

/-- `a * b` leaves 0..65535 (R96). -/
def productOverflows (a b : Word) : Bool := decide (a.toNat * b.toNat > Config.maxWord)

/-- The one condition `jump` tests (R26, R109). -/
def isZero (v : Word) : Bool := decide (v = 0#16)

/-- The ALU of R96: exact unsigned arithmetic, an error carrying both operand values where the result leaves 16 bits. -/
def alu (op : AluOp) (a b : Word) : Except Error Word :=
  match op with
  | .add => if sumOverflows a b then .error (.overflow a b) else .ok (BitVec.ofNat 16 (a.toNat + b.toNat))
  | .sub => if differenceUnderflows a b then .error (.underflow a b) else .ok (BitVec.ofNat 16 (a.toNat - b.toNat))
  | .mul => if productOverflows a b then .error (.overflow a b) else .ok (BitVec.ofNat 16 (a.toNat * b.toNat))

end Sys2Proof.Machine
end

