-- ==== Sys2Proof/Machine/Operands.lean ====
section
/-! DEFINITION. The operand forms: source reads (R94), destination writes under the `put` rules (R95), `copy`'s and `read`'s destinations
(R108, R114), and the document's names for a forbidden operand (R116). -/

namespace Sys2Proof.Machine

/-- `SrcRead(op, role, r)` of R94. A read of `pc` gives the address of the executing instruction (R22). -/
def srcRead (op : Mnemonic) (role : Role) (r : Reg) (s : State) : Except Error Word :=
  match r with
  | .out => .error (.forbidden op role .out)
  | .cell c => .ok (s.cell c)

/-- The destination test of the `put` rules: `pc`, `ans` and `out` are forbidden (R95). -/
def putDest (op : Mnemonic) (r : Reg) : Except Error StoredReg :=
  match r with
  | .out => .error (.forbidden op .dst .out)
  | .cell c => if c = .pc ∨ c = .ans then .error (.forbidden op .dst (.cell c)) else .ok c

/-- `PutWrite(op, r, v)` of R95. -/
def putWrite (op : Mnemonic) (r : Reg) (v : Word) (s : State) : Except Error State :=
  match putDest op r with
  | .error e => .error e
  | .ok c => .ok (s.setCell c v)

/-- The write of `copy`'s destination (R108): `pc` and `ans` are forbidden, `out` is the device multiplexer. -/
def copyWrite (r : Reg) (v : Word) (s : State) : Except Error State :=
  match r with
  | .out => outWrite v s
  | .cell c => if c = .pc ∨ c = .ans then .error (.forbidden .copy .dst (.cell c)) else .ok (s.setCell c v)

/-- The document's kinds of a forbidden-operand error (R116). -/
inductive SourceName where
  | cannotAdd | cannotCpFrom | cannotCpTo | cannotPut
deriving DecidableEq, Repr, Inhabited

/-- The table of R116: the document's name for `Forbidden(op, role, reg)`; `none` where the document names no kind
(`write`, `read`) and where the table has no row. -/
def forbiddenName (op : Mnemonic) (role : Role) (r : Reg) : Option SourceName :=
  match op, role, r with
  | .add, .x, .out => some .cannotAdd
  | .add, .y, .out => some .cannotAdd
  | .sub, .x, .out => some .cannotAdd
  | .sub, .y, .out => some .cannotAdd
  | .mul, .x, .out => some .cannotAdd
  | .mul, .y, .out => some .cannotAdd
  | .copy, .src, .out => some .cannotCpFrom
  | .copy, .dst, .cell .pc => some .cannotCpTo
  | .copy, .dst, .cell .ans => some .cannotCpTo
  | .put, .dst, .cell .pc => some .cannotPut
  | .put, .dst, .cell .ans => some .cannotPut
  | .put, .dst, .out => some .cannotPut
  | .push, .src, .out => some .cannotCpFrom
  | .pop, .dst, .cell .pc => some .cannotPut
  | .pop, .dst, .cell .ans => some .cannotPut
  | .pop, .dst, .out => some .cannotPut
  | _, _, _ => none

end Sys2Proof.Machine
end

