-- ==== Sys2Proof/Machine/Arithmetic.lean ====
section
/-! DEFINITION. The execute phases of `add` (R105), `sub` (R106) and `mul` (R107). -/

namespace Sys2Proof.Machine

/-- The shape the three share: both sources in operand order, the ALU, the result into `ans`. -/
def arithmetic (op : Mnemonic) (f : AluOp) (x y : Reg) (s : State) : Result :=
  orRaise s (srcRead op .x x s) fun a =>
    orRaise s (srcRead op .y y s) fun b =>
      orRaise s (alu f a b) fun r => .next (s.setCell .ans r)

/-- `add x y` (R105). -/
def execAdd (x y : Reg) (s : State) : Result := arithmetic .add .add x y s

/-- `sub x y` (R106): `x` is the minuend. -/
def execSub (x y : Reg) (s : State) : Result := arithmetic .sub .sub x y s

/-- `mul x y` (R107). -/
def execMul (x y : Reg) (s : State) : Result := arithmetic .mul .mul x y s

end Sys2Proof.Machine
end

