-- ==== Sys2Proof/Machine/Copy.lean ====
section
/-! DEFINITION. The execute phase of `copy` (R108). -/

namespace Sys2Proof.Machine

/-- `copy src dst` (R108): the source, then the destination, which may be the device multiplexer. -/
def execCopy (src dst : Reg) (s : State) : Result :=
  orRaise s (srcRead .copy .src src s) fun v =>
    orRaise s (copyWrite dst v s) fun t => .next t

end Sys2Proof.Machine
end

