-- ==== Sys2Proof/Machine/Jump.lean ====
section
/-! DEFINITION. The execute phase of `jump` (R109). -/

namespace Sys2Proof.Machine

/-- The value a taken `jump` writes to `pc`: the target rounded down to a multiple of 4, then 4 less where that is
above 0 (R109, C2). The advance adds 4 again (R91). -/
def jumpTarget (a : Word) : Word :=
  let t := a.toNat - a.toNat % 4
  BitVec.ofNat 16 (if t > 0 then t - 4 else t)

/-- `jump addr cond` (R109): both operands by the generic read, `addr` first; taken when `cond` holds 0. -/
def execJump (addr cond : Reg) (s : State) : Result :=
  orRaise s (readReg addr s) fun a =>
    orRaise s (readReg cond s) fun c =>
      .next (if isZero c then s.setCell .pc (jumpTarget a) else s)

end Sys2Proof.Machine
end

