-- ==== Sys2Proof/Machine/MemoryAccess.lean ====
section
/-! DEFINITION. The execute phases of `write` (R113) and `read` (R114). -/

namespace Sys2Proof.Machine

/-- `write src addr` (R113). -/
def execWrite (src addr : Reg) (s : State) : Result :=
  orRaise s (srcRead .write .src src s) fun v =>
    orRaise s (srcRead .write .addr addr s) fun a =>
      orRaise s (store16 a v s) fun t => .next t

/-- `read addr dst` (R114): the destination is checked before memory. `pc` and `ans` are refused as destinations
(D10; assumption log 10). -/
def execRead (addr dst : Reg) (s : State) : Result :=
  orRaise s (srcRead .read .addr addr s) fun a =>
    orRaise s (putDest .read dst) fun c =>
      orRaise s (load16 a s) fun v => .next (s.setCell c v)

end Sys2Proof.Machine
end

