-- ==== Sys2Proof/Machine/Put.lean ====
section
/-! DEFINITION. The execute phase of `put` (R110). -/

namespace Sys2Proof.Machine

/-- `put value dst` (R110). -/
def execPut (value : Word) (dst : Reg) (s : State) : Result :=
  orRaise s (putWrite .put dst value s) fun t => .next t

end Sys2Proof.Machine
end

