-- ==== Sys2Proof/Machine/Stack.lean ====
section
/-! DEFINITION. The execute phases of `push` (R111) and `pop` (R112). -/

namespace Sys2Proof.Machine

/-- `push src` (R111), its checks in the rule's order, all before any write. -/
def execPush (src : Reg) (s : State) : Result :=
  let sp := s.cell .sp
  if sp = 0#16 then raise .stackOverflow s
  else
    orRaise s (srcRead .push .src src s) fun v =>
      if sp = 65535#16 then raise (.memOutOfRange sp) s
      else if sp = 1#16 then raise (.spOutOfRange sp) s
      else orRaise s (store16 sp v s) fun t => .next (t.setCell .sp (sp - 2#16))

/-- `pop dst` (R112): `sp` is raised first, so that the load's and the destination's errors are raised with `sp`
already 2 higher (R93, C4). -/
def execPop (dst : Reg) (s : State) : Result :=
  let sp := s.cell .sp
  if sp = 65534#16 then raise .stackUnderflow s
  else if sp = 65535#16 then raise (.spOutOfRange sp) s
  else
    let t := s.setCell .sp (sp + 2#16)
    orRaise t (load16 (sp + 2#16) t) fun v =>
      orRaise t (putWrite .pop dst v t) fun u => .next u

end Sys2Proof.Machine
end

