-- ==== Sys2Proof/Machine/System.lean ====
section
/-! DEFINITION. The execute phases of `halt` (R103) and `noop` (R104). -/

namespace Sys2Proof.Machine

/-- `halt` (R103): the core enters the halted super-state (R27). -/
def execHalt (s : State) : Result := .next (s.setHalted true)

/-- `noop` (R104): no effect. -/
def execNoop (s : State) : Result := .next s

end Sys2Proof.Machine
end

