-- ==== Sys2Proof/Machine/Dispatch.lean ====
section
/-! DEFINITION. The dispatch of R90: one arm per instruction, each its execute phase. -/

namespace Sys2Proof.Machine

def exec (i : Instr) (s : State) : Host.Outcome State Fault Refusal :=
  match i with
  | .halt => Sys2Proof.Machine.execHalt s
  | .noop => Sys2Proof.Machine.execNoop s
  | .add x y => Sys2Proof.Machine.execAdd x y s
  | .sub x y => Sys2Proof.Machine.execSub x y s
  | .mul x y => Sys2Proof.Machine.execMul x y s
  | .copy src dst => Sys2Proof.Machine.execCopy src dst s
  | .jump addr cond => Sys2Proof.Machine.execJump addr cond s
  | .put value dst => Sys2Proof.Machine.execPut value dst s
  | .push src => Sys2Proof.Machine.execPush src s
  | .pop dst => Sys2Proof.Machine.execPop dst s
  | .write src addr => Sys2Proof.Machine.execWrite src addr s
  | .read addr dst => Sys2Proof.Machine.execRead addr dst s

end Sys2Proof.Machine
end

