-- ==== Sys2Proof/Machine/Controller.lean ====
section
/-! DEFINITION. The fetch-decode-execute controller (R87), for any encoding maps. -/

namespace Sys2Proof.Machine

/-- Stage 4 of R87, after an execute phase that left the state `t`: an error raised in execute ends the step there (R93);
`halt` does not advance; everything else does (R91). A completed step call also takes the host's next supply (R102). -/
def complete (i : Instr) (t : State) : Result :=
  match t.status with
  | .running =>
    if i.mnemonic = .halt then .next (nextSupply t)
    else orRaise t (advance t) fun u => .next (nextSupply u)
  | .faulted _ => .next t
  | .refused _ => .next t

/-- Stage 4 after any outcome of the execute phase. -/
def retire (i : Instr) (o : Result) : Result :=
  match o with
  | .next t => complete i t
  | .fault f => .fault f
  | .refused n => .refused n

/-- A failed decode ends the step (R89): the document's decode error and the spec's model fault are raised, the spec's
refusal ends the step with no meaning given (R117). -/
def raiseDecode (d : DecodeStop) (s : State) : Result :=
  match d with
  | .decodeError b => raise (.decodeError b) s
  | .badRegister b => raise (.badRegister b) s
  | .nonZeroReserved => .refused .nonZeroReserved

/-- Stages 2 to 4 of R87 in a powered core: fetch, decode, execute, advance. -/
def runInstr (m : Maps) (s : State) : Result :=
  orRaise s (fetch s) fun w =>
    match decode m w with
    | .error d => raiseDecode d s
    | .ok i => retire i (exec i s)

/-- `step` of R87 under the maps `m`, the slots being those of the state. No further step is taken from a faulted or
refused state (R30; assumption log 15); a halted core does nothing (R88). -/
def stepWith (m : Maps) (s : State) : Result :=
  match s.status with
  | .running => if s.halted then .next s else runInstr m s
  | .faulted e => .fault (.afterError e)
  | .refused n => .refused n

end Sys2Proof.Machine
end

