-- ==== Sys2Proof/Machine/Step.lean ====
section
/-! DEFINITION. The machine's step, under the default maps (D1, D2; assumption logs 2 and 3), and where the host's check places a word. -/

namespace Sys2Proof.Machine

/-- One step call (R87) under the default maps. -/
def step (s : State) : Host.Outcome State Fault Refusal := stepWith defaultMaps s

/-- The state with the word of bits `w` (those below `nbits`) at `pc`, where the next step of a powered, running core
fetches. It stands for the host's load (R132; assumption log 23). -/
def State.withFetchWord (s : State) (nbits w : Nat) : State := placeWord (InstrWord.ofBits nbits w) s

end Sys2Proof.Machine
end

