-- ==== Sys2Proof/Machine/Text.lean ====
section
/-! DEFINITION. The text form of one instruction: tokens (R68), parse (R69 to R75) and print (R76). Text is a list of characters. -/

namespace Sys2Proof.Machine

/-- A token of a source line (R68). -/
abbrev Token := List Char

/-- A line of text, or a whole source text. -/
abbrev Text := List Char

/-- The compile-time errors of R115 (rows 1 and 2), each with the offending token. -/
inductive CompileError where
  | parseError (token : Token)
  | undefinedLabel (token : Token)
deriving DecidableEq, Repr, Inhabited

/-- The Unicode White_Space characters (R68, D17), by code point.
PRESUMED (assumption log 20): the spec names the property and does not list its members; unsafe for a claim about a text
that holds one of the rarer members. -/
def isWhitespace (c : Char) : Bool :=
  let n := c.toNat
  (decide (9 ≤ n) && decide (n ≤ 13)) || n == 32 || n == 0x85 || n == 0xA0 || n == 0x1680
    || (decide (0x2000 ≤ n) && decide (n ≤ 0x200A)) || n == 0x2028 || n == 0x2029 || n == 0x202F || n == 0x205F || n == 0x3000

/-- The text cut at every character that meets `p`, the cuts dropped: one piece more than there are such characters. -/
def splitWhere (p : Char → Bool) : Text → List Text
  | [] => [[]]
  | c :: rest =>
    if p c then [] :: splitWhere p rest
    else
      match splitWhere p rest with
      | [] => [[c]]
      | t :: ts => (c :: t) :: ts

/-- The tokens of a line: maximal runs of characters that are not whitespace (R68). -/
def tokens (line : Text) : List Token := (splitWhere isWhitespace line).filter (fun t => !t.isEmpty)

/-- The mnemonic tokens of R69. -/
def mnemonicName : Mnemonic → Token
  | .halt => ['h', 'a', 'l', 't']
  | .noop => ['n', 'o', 'o', 'p']
  | .add => ['a', 'd', 'd']
  | .sub => ['s', 'u', 'b']
  | .mul => ['m', 'u', 'l']
  | .copy => ['c', 'o', 'p', 'y']
  | .jump => ['j', 'u', 'm', 'p']
  | .put => ['p', 'u', 't']
  | .push => ['p', 'u', 's', 'h']
  | .pop => ['p', 'o', 'p']
  | .write => ['w', 'r', 'i', 't', 'e']
  | .read => ['r', 'e', 'a', 'd']

/-- The register tokens of R71. -/
def regName : Reg → Token
  | .cell .gp0 => ['g', 'p', '0']
  | .cell .gp1 => ['g', 'p', '1']
  | .cell .gp2 => ['g', 'p', '2']
  | .cell .gp3 => ['g', 'p', '3']
  | .cell .gp4 => ['g', 'p', '4']
  | .cell .gp5 => ['g', 'p', '5']
  | .cell .gp6 => ['g', 'p', '6']
  | .cell .gp7 => ['g', 'p', '7']
  | .cell .ans => ['a', 'n', 's']
  | .cell .dvc => ['d', 'v', 'c']
  | .out => ['o', 'u', 't']
  | .cell .pc => ['p', 'c']
  | .cell .sp => ['s', 'p']

/-- The mnemonic a token names, matched exactly (R69). -/
def mnemonicOfToken (t : Token) : Option Mnemonic := Mnemonic.all.find? (fun k => mnemonicName k == t)

/-- The register a token names, matched exactly (R71). -/
def regOfToken (t : Token) : Option Reg := Reg.all.find? (fun r => regName r == t)

/-- An ASCII digit (R72). -/
def isDigitChar (c : Char) : Bool := decide (48 ≤ c.toNat) && decide (c.toNat ≤ 57)

/-- The value of a run of decimal digits, first digit highest (R72). -/
def decimalValue (t : Token) : Nat := t.foldl (fun n c => 10 * n + (c.toNat - 48)) 0

/-- A literal of R72: a non-empty run of ASCII digits of value at most 65535. -/
def literalOfToken (t : Token) : Option Word :=
  if !t.isEmpty && t.all isDigitChar && decide (decimalValue t ≤ Config.maxWord) then some (BitVec.ofNat 16 (decimalValue t))
  else none

/-- The next operand token as a register; a missing one is the empty token's error (R71, R74). -/
def takeReg : List Token → Except CompileError (Reg × List Token)
  | [] => .error (.parseError [])
  | t :: rest =>
    match regOfToken t with
    | none => .error (.parseError t)
    | some r => .ok (r, rest)

/-- The next operand token as a literal (R72, R74). -/
def takeLiteral : List Token → Except CompileError (Word × List Token)
  | [] => .error (.parseError [])
  | t :: rest =>
    match literalOfToken t with
    | none => .error (.parseError t)
    | some v => .ok (v, rest)

/-- One register operand; the tokens after it are ignored (R70, R73). -/
def parseR (mk : Reg → Instr) (ts : List Token) : Except CompileError Instr :=
  match takeReg ts with
  | .error e => .error e
  | .ok (r, _) => .ok (mk r)

/-- Two register operands, left to right; the tokens after them are ignored (R70, R73, R75). -/
def parseRR (mk : Reg → Reg → Instr) (ts : List Token) : Except CompileError Instr :=
  match takeReg ts with
  | .error e => .error e
  | .ok (r1, rest) => parseR (mk r1) rest

/-- A literal, then a register (R70, R75). -/
def parseUR (mk : Word → Reg → Instr) (ts : List Token) : Except CompileError Instr :=
  match takeLiteral ts with
  | .error e => .error e
  | .ok (v, rest) => parseR (mk v) rest

/-- The operand grammar of R70. -/
def parseOperands (k : Mnemonic) (ts : List Token) : Except CompileError Instr :=
  match k with
  | .halt => .ok .halt
  | .noop => .ok .noop
  | .add => parseRR .add ts
  | .sub => parseRR .sub ts
  | .mul => parseRR .mul ts
  | .copy => parseRR .copy ts
  | .jump => parseRR .jump ts
  | .put => parseUR .put ts
  | .push => parseR .push ts
  | .pop => parseR .pop ts
  | .write => parseRR .write ts
  | .read => parseRR .read ts

/-- `parse` of R75 on a line's tokens. -/
def parseTokens : List Token → Except CompileError Instr
  | [] => .error (.parseError [])
  | t :: rest =>
    match mnemonicOfToken t with
    | none => .error (.parseError t)
    | some k => parseOperands k rest

/-- `parse` of R75. -/
def parse (line : Text) : Except CompileError Instr := parseTokens (tokens line)

/-- A number in decimal with no leading zeros (R76, R80). -/
def decimal (n : Nat) : Token := Nat.toDigits 10 n

/-- Tokens joined by one space character (R76, R80). -/
def joinTokens : List Token → Text
  | [] => []
  | [t] => t
  | t :: u :: rest => t ++ ' ' :: joinTokens (u :: rest)

/-- The operand tokens of an instruction term, in grammar order (R70, R76). -/
def operandTokens : Instr → List Token
  | .halt => []
  | .noop => []
  | .add x y => [regName x, regName y]
  | .sub x y => [regName x, regName y]
  | .mul x y => [regName x, regName y]
  | .copy src dst => [regName src, regName dst]
  | .jump addr cond => [regName addr, regName cond]
  | .put value dst => [decimal value.toNat, regName dst]
  | .push src => [regName src]
  | .pop dst => [regName dst]
  | .write src addr => [regName src, regName addr]
  | .read addr dst => [regName addr, regName dst]

/-- `print` of R76: the spec's own canonical form (D23). -/
def print (i : Instr) : Text := joinTokens (mnemonicName i.mnemonic :: operandTokens i)

end Sys2Proof.Machine
end

