-- ==== Sys2Proof/Machine/Assembler.lean ====
section
/-! DEFINITION. The two-pass assembler (R77 to R85). -/

namespace Sys2Proof.Machine

/-- The three kinds of source line (R77). -/
inductive LineKind where
  | blank | comment | instruction
deriving DecidableEq, Repr, Inhabited

/-- A source text's lines, split at line-feed characters (R77). -/
def lines (source : Text) : List Text := splitWhere (fun c => c.toNat == 10) source

/-- The kind of a line (R77); whitespace may stand before `#` or `;` (D18; assumption log 21). -/
def lineKind (line : Text) : LineKind :=
  match tokens line with
  | [] => .blank
  | t :: _ =>
    match t with
    | [] => .blank
    | c :: _ => if c = '#' ∨ c = ';' then .comment else .instruction

/-- A token that begins with `.` (R79, R80). -/
def isLabel (t : Token) : Bool :=
  match t with
  | [] => false
  | c :: _ => c == '.'

/-- The label bindings of pass 1, in the order in which they were made. -/
abbrev Labels := List (Token × Nat)

/-- The address a label is bound to. -/
def labelAddress (labels : Labels) (t : Token) : Option Nat :=
  match labels with
  | [] => none
  | (u, a) :: rest => if u = t then some a else labelAddress rest t

/-- The label an instruction line defines: its last token, where that begins with `.` (R79). -/
def definedLabel (line : Text) : Option Token :=
  match (tokens line).getLast? with
  | none => none
  | some t => if isLabel t then some t else none

/-- The bindings with a line's label added at its address, unless it is bound already: the first definition wins (R79). -/
def bindLabel (labels : Labels) (line : Text) (a : Nat) : Labels :=
  match definedLabel line with
  | none => labels
  | some t => if (labelAddress labels t).isSome then labels else labels ++ [(t, a)]

/-- Pass 1 (R78): the labels of the lines, the running address going up by 4 at each instruction line. -/
def collectLabels (labels : Labels) (a : Nat) : List Text → Labels
  | [] => labels
  | line :: rest =>
    match lineKind line with
    | .blank => collectLabels labels a rest
    | .comment => collectLabels labels a rest
    | .instruction => collectLabels (bindLabel labels line a) (a + Config.instrBytes) rest

/-- Pass 2's replacement of every `.` token of a line by its address in decimal (R80). -/
def replaceLabels (labels : Labels) : List Token → Except CompileError (List Token)
  | [] => .ok []
  | t :: rest =>
    match (if isLabel t then (labelAddress labels t).map decimal else some t) with
    | none => .error (.undefinedLabel t)
    | some u =>
      match replaceLabels labels rest with
      | .error e => .error e
      | .ok us => .ok (u :: us)

/-- One instruction line in pass 2: labels replaced, tokens joined by single spaces, then parsed (R80). -/
def assembleLine (labels : Labels) (line : Text) : Except CompileError Instr :=
  match replaceLabels labels (tokens line) with
  | .error e => .error e
  | .ok ts => parse (joinTokens ts)

/-- An assembled program (R83): its instructions, and the rendering aid kept for display, which no rule of the core
reads (R5): address to source-line index, and the source lines. -/
structure Program where
  instrs : List Instr
  /-- Each instruction's byte address with the index of its source line, the first line's index being 0.
  DESIGN CHOICE (assumption log 25): R80 and R83 name the index and give no base; unsafe for a claim about an index. -/
  lineOf : List (Nat × Nat)
  source : List Text
deriving DecidableEq, Repr, Inhabited

/-- Pass 2 (R80): line by line, stopping at the first error (R82). A line's index is the number of lines before it, so the first
line has index 0: DESIGN CHOICE (assumption log 25), since R80 gives the index no base. -/
def emit (labels : Labels) (p : Program) : List Text → Except CompileError Program
  | [] => .ok p
  | line :: rest =>
    let kept := p.source ++ [line]
    match lineKind line with
    | .blank => emit labels { p with source := kept } rest
    | .comment => emit labels { p with source := kept } rest
    | .instruction =>
      match assembleLine labels line with
      | .error e => .error e
      | .ok i =>
        emit labels
          { instrs := p.instrs ++ [i]
            lineOf := p.lineOf ++ [(Config.instrBytes * p.instrs.length, p.source.length)]
            source := kept } rest

/-- The assembler: pass 1, then pass 2 (R78 to R84). -/
def assemble (source : Text) : Except CompileError Program :=
  emit (collectLabels [] 0 (lines source)) { instrs := [], lineOf := [], source := [] } (lines source)

end Sys2Proof.Machine
end

