-- ==== Sys2Proof/Machine/HostInterface.lean ====
section
/-! DEFINITION. The core's interface to the host (R101): load, load_source, step with its results, the read-only accessors. -/

/-- The state after a model fault, in which the spec lets a model give everything but the status "any value" (D16).
A free value: it has no body, so nothing can be proved of it (assumption log 16). -/
opaque Sys2Proof.Config.afterModelFault : Sys2Proof.Machine.Error → Sys2Proof.Machine.State → Sys2Proof.Machine.State

namespace Sys2Proof.Machine

/-- A `BootError`: row 3 of R115, or a wrapped compile error (R101, R133). -/
inductive BootError where
  | programTooLarge
  | compile (e : CompileError)
deriving DecidableEq, Repr, Inhabited

/-- The results of a step call (R92). -/
inductive StepResult where
  | ok (halted : Bool)
  | error (e : Error)
  | refused (n : Refusal)
deriving DecidableEq, Repr, Inhabited

/-- `load(program)` (R132): bytes 0 to n-1, no register. The spec applies it once, to a core in its reset state (D20). -/
def load (program : List Byte) (s : State) : Except BootError State :=
  if fitsMemory program then .ok (s.setMem (Memory.writeBytes s.mem 0 program)) else .error .programTooLarge

/-- `load_source(text)` (R133): assemble, encode, load. -/
def loadSource (m : Maps) (source : Text) (s : State) : Except BootError State :=
  match assemble source with
  | .error e => .error (.compile e)
  | .ok p => load (encodeProgram m p.instrs) s

/-- Reset and load: the start of a run under the launch premises of R136. -/
def boot (l : Launch) (devices : DeviceSlots) (schedule : List DeviceSlots) (program : List Byte) : Except BootError State :=
  load program (State.launch l devices schedule)

/-- The error a fault of the step stands for (R115). -/
def Fault.error : Fault → Error
  | .badRegister b => .badRegister b
  | .memOutOfRange a => .memOutOfRange a
  | .spOutOfRange v => .spOutOfRange v
  | .pcOverflow p => .pcOverflow p
  | .noDevice k => .noDevice k
  | .afterError e => e

/-- The result of a step that left the state `t` (R92, D19). -/
def resultOf (t : State) : StepResult :=
  match t.status with
  | .running => .ok t.halted
  | .faulted e => .error e
  | .refused n => .refused n

/-- The state the model keeps after a fault (R30): after a model fault, the record of it in a state that is otherwise
unknown (D16); after a step call in a state that records an error already, which is outside the model (R102), that state. -/
def keptAfter (f : Fault) (s : State) : State :=
  match s.status with
  | .running => (Config.afterModelFault f.error s).setStatus (.faulted f.error)
  | .faulted _ => s
  | .refused _ => s

/-- A step's outcome as the host sees it, with the state the model keeps. A refusal changes nothing and is recorded
(R30, R117). -/
def report (s : State) (o : Result) : StepResult × State :=
  match o with
  | .next t => (resultOf t, t)
  | .refused n => (.refused n, s.setStatus (.refused n))
  | .fault f => (.error f.error, keptAfter f s)

/-- `step(devices)` of R87 and R101 under the maps `m`: the slots are those the host supplies in this call. -/
def hostStep (m : Maps) (devices : DeviceSlots) (s : State) : StepResult × State :=
  report (supply devices s) (stepWith m (supply devices s))

/-- The register accessor of R101: a stored register's value; `out` has none. -/
def readAccessor (r : Reg) (s : State) : Option Word :=
  match r with
  | .out => none
  | .cell c => some (s.cell c)

/-- The memory accessor of R101. -/
def memoryAccessor (a : Word) (s : State) : Byte := s.byte a.toNat

/-- The console accessor of R101. -/
def consoleAccessor (s : State) : List Word := s.console

/-- The console's text under the host's CONSOLE_RENDER (R100, D14). -/
def consoleText (render : List Word → Text) (s : State) : Text := render s.console

end Sys2Proof.Machine
end

