-- ==== Sys2Proof/Safety.lean ====
section
/-! DEFINITION. What counts as a safe state and a safe step, and what it is for two states to agree, in the terms the
statements use. -/

namespace Sys2Proof.Machine

/-- The machine's invariant: memory in its canonical form (R31) and `pc` a multiple of 4 (R21). -/
def State.Inv (s : State) : Prop := Memory.wf s.mem = true ∧ (s.cell .pc).toNat % 4 = 0

/-- No error and no refusal is recorded (R30). -/
def State.errorFree (s : State) : Prop := s.status = .running

/-- A core that the next step call finds powered and without a recorded error: the state in which a step runs an
instruction (R27, R30, R87). -/
def State.active (s : State) : Prop := s.errorFree ∧ s.halted = false

/-- A step from `s` under the maps `m` answers a state with no error recorded: the result is `Ok` (R92). -/
def safeStep (m : Maps) (s : State) : Prop := ∃ t, stepWith m s = .next t ∧ t.errorFree

/-- The four bytes from `pc` on (R37, R89). -/
def State.wordAtPc (s : State) : InstrWord :=
  { b0 := s.byte (s.cell .pc).toNat, b1 := s.byte ((s.cell .pc).toNat + 1)
    b2 := s.byte ((s.cell .pc).toNat + 2), b3 := s.byte ((s.cell .pc).toNat + 3) }

/-- `s` is active, its fetch lies inside memory, and the word there decodes to `i` under the maps `m`. -/
def State.decodesTo (m : Maps) (s : State) (i : Instr) : Prop :=
  s.active ∧ (s.cell .pc).toNat ≤ 65532 ∧ decode m s.wordAtPc = .ok i

/-- `t` is `s` but for the cells listed and for memory. -/
def sameApartMem (cells : List StoredReg) (s t : State) : Prop :=
  (∀ c, c ∉ cells → t.cell c = s.cell c) ∧ t.halted = s.halted ∧ t.status = s.status ∧ t.console = s.console ∧
    t.history = s.history ∧ t.devices = s.devices ∧ t.schedule = s.schedule

/-- `t` is `s` but for the cells listed; every byte of memory reads as before. -/
def sameBut (cells : List StoredReg) (s t : State) : Prop :=
  sameApartMem cells s t ∧ ∀ a, t.byte a = s.byte a

/-- `t` is `s` but for the host's device supply (R99, R102). -/
def sameMachine (s t : State) : Prop :=
  t.regs = s.regs ∧ t.halted = s.halted ∧ t.status = s.status ∧ t.mem = s.mem ∧ t.console = s.console ∧
    t.history = s.history

/-- The cell a destination operand may write: none for `pc`, `ans` and `out` (R25). -/
def destCells : Reg → List StoredReg
  | .out => []
  | .cell .pc => []
  | .cell .ans => []
  | .cell c => [c]

/-- The cells the table of R25 lets an instruction's execute phase write, explicitly or implicitly. -/
def Instr.mayWrite : Instr → List StoredReg
  | .halt => []
  | .noop => []
  | .add _ _ => [.ans]
  | .sub _ _ => [.ans]
  | .mul _ _ => [.ans]
  | .copy _ dst => destCells dst
  | .jump _ _ => [.pc]
  | .put _ dst => destCells dst
  | .push _ => [.sp]
  | .pop dst => .sp :: destCells dst
  | .write _ _ => []
  | .read _ dst => destCells dst

end Sys2Proof.Machine
end

