-- ==== Sys2Proof/Certificates/Slice0/Obligations.lean ====
section
/-! DEFINITION. The statements for the provers. Each docstring names the rule of spec/ it comes from and, where a clause rests
on a decision the spec marks as its own, the row D<n> of spec/92_eei_decisions.md. -/

open Sys2Proof Sys2Proof.Machine

/-! ### The codec -/

/-- Words written out from the encodings of 30_encoding.md decode to the instructions they stand for. The opcodes and
ids are the spec's default maps (D1, D2; assumption logs 2 and 3). -/
def Obligations.SpecWordsDecode : Prop :=
  decode defaultMaps ⟨0x00, 0xFF, 0x12, 0x34⟩ = .ok .halt ∧
  decode defaultMaps ⟨0x01, 0x00, 0x00, 0x00⟩ = .ok .noop ∧
  decode defaultMaps ⟨0x02, 0x01, 0x00, 0x00⟩ = .ok (.add (.cell .gp1) (.cell .gp0)) ∧
  decode defaultMaps ⟨0x05, 0x08, 0x0A, 0x00⟩ = .ok (.copy (.cell .ans) .out) ∧
  decode defaultMaps ⟨0x06, 0x07, 0x05, 0x00⟩ = .ok (.jump (.cell .gp7) (.cell .gp5)) ∧
  decode defaultMaps ⟨0x07, 0x34, 0x12, 0x09⟩ = .ok (.put 0x1234 (.cell .dvc)) ∧
  decode defaultMaps ⟨0x08, 0x0B, 0x00, 0x00⟩ = .ok (.push (.cell .pc)) ∧
  decode defaultMaps ⟨0x0B, 0x01, 0x02, 0x00⟩ = .ok (.read (.cell .gp1) (.cell .gp2))

/-- R67, both laws, under every pair of maps that R58 and R59 admit: decode of encode is the identity on every term; a
word that decodes is its instruction's encoding, but for the words of byte 0 = 0 whose other bytes are not all zero, which
all decode as `halt`, whose encoding is the zero word. -/
def Obligations.CodecRoundTrip : Prop :=
  ∀ m : Maps, m.admissible = true →
    (∀ i : Instr, decode m (encode m i) = .ok i) ∧
    (∀ (w : InstrWord) (i : Instr), decode m w = .ok i →
      encode m i = w ∨
        (w.b0 = 0#8 ∧ (w.b1 ≠ 0#8 ∨ w.b2 ≠ 0#8 ∨ w.b3 ≠ 0#8) ∧ i = .halt ∧ encode m .halt = ⟨0#8, 0#8, 0#8, 0#8⟩)) ∧
    (∀ (w w' : InstrWord) (i : Instr), decode m w = .ok i → decode m w' = .ok i → w = w' ∨ (w.b0 = 0#8 ∧ w'.b0 = 0#8))

/-- The default maps meet the constraints of R58 and R59 (the spec's own defaults, D1, D2). -/
def Obligations.DefaultMapsAdmissible : Prop := defaultMaps.admissible = true

/-- R61. -/
def Obligations.OpcodeZeroIsHalt : Prop :=
  ∀ (m : Maps) (w : InstrWord), w.b0 = 0#8 → decode m w = .ok .halt

/-- R62: an unknown byte 0 is the decode error that carries it, and at execution time it ends the step: nothing changes but the
status, the `pc` is not advanced. -/
def Obligations.UnknownOpcodeIsFatal : Prop :=
  ∀ (m : Maps), m.admissible = true →
    (∀ w : InstrWord, (∀ k, m.opcode k ≠ w.b0) → decode m w = .error (.decodeError w.b0)) ∧
    (∀ s : State, s.active → (s.cell .pc).toNat ≤ 65532 → (∀ k, m.opcode k ≠ s.wordAtPc.b0) →
      stepWith m s = .next (s.setStatus (.faulted (.decodeError s.wordAtPc.b0))))

/-- R64 and the order of R60: with a known opcode, the register bytes are looked up from byte 1 on, before any reserved byte, and
the first that is no id is the fault that carries it; the step then stops. The fault is the spec's own (D4, D12). -/
def Obligations.UnknownRegisterByteFaults : Prop :=
  ∀ (m : Maps), m.admissible = true → ∀ (w : InstrWord) (k : Mnemonic), m.opcode k = w.b0 →
    ((k.format = .rr ∨ k.format = .r) → (∀ r, m.regId r ≠ w.b1) → decode m w = .error (.badRegister w.b1)) ∧
    (k.format = .rr → ∀ r, m.regId r = w.b1 → (∀ q, m.regId q ≠ w.b2) → decode m w = .error (.badRegister w.b2)) ∧
    (k.format = .ir → (∀ r, m.regId r ≠ w.b3) → decode m w = .error (.badRegister w.b3)) ∧
    (∀ (s : State) (b : Byte), s.active → (s.cell .pc).toNat ≤ 65532 → decode m s.wordAtPc = .error (.badRegister b) →
      stepWith m s = .fault (.badRegister b))

/-- R63 and R117: a known opcode other than `halt`, register bytes that are ids, and a non-zero byte where the format shows 0 is
refused, by decode and by the step. The refusal is the spec's own (D3). -/
def Obligations.ReservedBytesAreRefused : Prop :=
  ∀ (m : Maps), m.admissible = true → ∀ (w : InstrWord) (k : Mnemonic), m.opcode k = w.b0 → k ≠ .halt →
    (k.format = .n → (w.b1 ≠ 0#8 ∨ w.b2 ≠ 0#8 ∨ w.b3 ≠ 0#8) → decode m w = .error .nonZeroReserved) ∧
    (k.format = .rr → ∀ q r, m.regId q = w.b1 → m.regId r = w.b2 → w.b3 ≠ 0#8 → decode m w = .error .nonZeroReserved) ∧
    (k.format = .r → ∀ q, m.regId q = w.b1 → (w.b2 ≠ 0#8 ∨ w.b3 ≠ 0#8) → decode m w = .error .nonZeroReserved) ∧
    (∀ s : State, s.active → (s.cell .pc).toNat ≤ 65532 → decode m s.wordAtPc = .error .nonZeroReserved →
      stepWith m s = .refused .nonZeroReserved)

/-- R56: the immediate of `put` is `B1 + 256*B2` of its word, unsigned, and every 16-bit value can be encoded. -/
def Obligations.PutImmediate : Prop :=
  (∀ (m : Maps) (w : InstrWord) (v : Word) (r : Reg), decode m w = .ok (.put v r) → v.toNat = w.b1.toNat + 256 * w.b2.toNat) ∧
  (∀ (m : Maps) (v : Word) (r : Reg),
    (encode m (.put v r)).b1.toNat + 256 * (encode m (.put v r)).b2.toNat = v.toNat)

/-! ### The step -/

/-- The first clause is the model's choice, which the spec leaves to a parameter: `step` takes the spec's default maps (D1, D2; assumption
logs 2 and 3, both DESIGN CHOICE). The rest is R87, under any maps: where the bytes at `pc` decode to an instruction, the step is that instruction's execute phase, and around it: nothing
more after a recorded error or a fault; no advance after `halt`; otherwise `pc`, read again, plus 4, which at 65532 is the
fault of R91 (D8). A completed step call also takes the host's next device supply (the model's own, assumption log 13). -/
def Obligations.StepRunsDecodedInstruction : Prop :=
  (∀ s : State, step s = stepWith defaultMaps s) ∧
  ∀ (m : Maps) (s : State) (i : Instr), s.decodesTo m i →
    (∀ f, exec i s = .fault f → stepWith m s = .fault f) ∧
    (∀ t, exec i s = .next t →
      (t.status ≠ .running → stepWith m s = .next t) ∧
      (t.status = .running → i = .halt → stepWith m s = .next (nextSupply t)) ∧
      (t.status = .running → i ≠ .halt → (t.cell .pc).toNat ≤ 65531 →
        stepWith m s = .next (nextSupply (t.setCell .pc (t.cell .pc + 4)))) ∧
      (t.status = .running → i ≠ .halt → 65531 < (t.cell .pc).toNat →
        stepWith m s = .fault (.pcOverflow (t.cell .pc))))

/-- R88: a halted core's step changes nothing, whatever the memory at `pc` holds; the host gets Ok(true) (D19). -/
def Obligations.HaltedStepIsNoOp : Prop :=
  ∀ (m : Maps) (d : DeviceSlots) (s : State), s.errorFree → s.halted = true →
    stepWith m s = .next s ∧ hostStep m d s = (.ok true, supply d s)

/-- R30: from a state that records an error or a refusal no further step is taken (the spec's own, D15). -/
def Obligations.NoStepAfterError : Prop :=
  ∀ (m : Maps) (s : State),
    (∀ e, s.status = .faulted e → stepWith m s = .fault (.afterError e)) ∧
    (∀ n, s.status = .refused n → stepWith m s = .refused n)

/-- R93 and R120: after a step that ends in an error with a known state, the `pc` is that of the failing instruction and nothing
has changed but the status, except that a `pop` has raised `sp` by 2. -/
def Obligations.ErrorsArePrecise : Prop :=
  ∀ (m : Maps) (s t : State) (e : Error), s.active → stepWith m s = .next t → t.status = .faulted e →
    e.fault? = none ∧ t.cell .pc = s.cell .pc ∧
    (t = s.setStatus (.faulted e) ∨
      ∃ dst, decode m s.wordAtPc = .ok (.pop dst) ∧ t = (s.setCell .sp (s.cell .sp + 2#16)).setStatus (.faulted e))

/-- R92 and R30: what the host's step call answers, and the record the model keeps of it. -/
def Obligations.HostStepRecordsResult : Prop :=
  ∀ (m : Maps) (d : DeviceSlots) (s : State),
    (∀ b, (hostStep m d s).1 = .ok b → (hostStep m d s).2.errorFree ∧ (hostStep m d s).2.halted = b) ∧
    (∀ e, (hostStep m d s).1 = .error e → (hostStep m d s).2.status = .faulted e) ∧
    (∀ n, (hostStep m d s).1 = .refused n → (hostStep m d s).2 = (supply d s).setStatus (.refused n))

/-- An instruction whose encoding stands at `pc` is the one the next step runs, under every admissible pair of maps. -/
def Obligations.PlacedEncodingRuns : Prop :=
  ∀ (m : Maps) (s : State) (i : Instr), m.admissible = true → Memory.wf s.mem = true → s.active →
    (s.cell .pc).toNat ≤ 65532 →
    (placeWord (encode m i) s).decodesTo m i ∧
    stepWith m (placeWord (encode m i) s) = retire i (exec i (placeWord (encode m i) s))

/-! ### Registers, memory, ALU, devices -/

/-- R16. -/
def Obligations.GenericRead : Prop :=
  ∀ s : State, readReg .out s = .error (.pseudoRegister .out) ∧ ∀ c, readReg (.cell c) s = .ok (s.cell c)

/-- R17: the write of a stored register stores the value in its own cell and nowhere else. -/
def Obligations.GenericWrite : Prop :=
  ∀ (s : State) (v : Word), writeReg .out v s = .error (.pseudoRegister .out) ∧
    ∀ c, ∃ t, writeReg (.cell c) v s = .ok t ∧ t.cell c = v ∧ sameBut [c] s t

/-- R96: exact unsigned 16-bit arithmetic, an error carrying both operand values otherwise. -/
def Obligations.AluIsChecked : Prop :=
  ∀ a b : Word,
    (65535 < a.toNat + b.toNat → alu .add a b = .error (.overflow a b)) ∧
    (a.toNat + b.toNat ≤ 65535 → ∃ r, alu .add a b = .ok r ∧ r.toNat = a.toNat + b.toNat) ∧
    (a.toNat < b.toNat → alu .sub a b = .error (.underflow a b)) ∧
    (b.toNat ≤ a.toNat → ∃ r, alu .sub a b = .ok r ∧ r.toNat + b.toNat = a.toNat) ∧
    (65535 < a.toNat * b.toNat → alu .mul a b = .error (.overflow a b)) ∧
    (a.toNat * b.toNat ≤ 65535 → ∃ r, alu .mul a b = .ok r ∧ r.toNat = a.toNat * b.toNat)

/-- R38: a `write` and a `read` of the same address move the value little-endian: the low byte at the address, the high byte at
the next one, and the `read` gives back the value of the `write`. -/
def Obligations.WriteThenReadLittleEndian : Prop :=
  ∀ (s : State) (src addr addr' dst : StoredReg), Memory.wf s.mem = true → s.cell addr ≠ 65535#16 → dst ≠ .pc → dst ≠ .ans →
    ∃ t, exec (.write (.cell src) (.cell addr)) s = .next t ∧
      (t.byte (s.cell addr).toNat).toNat = (s.cell src).toNat % 256 ∧
      (t.byte ((s.cell addr).toNat + 1)).toNat = (s.cell src).toNat / 256 ∧
      (t.cell addr' = s.cell addr → ∃ u, exec (.read (.cell addr') (.cell dst)) t = .next u ∧ u.cell dst = s.cell src)

/-- R111 and R112 together: what a `push` stores, the next `pop` gives back, and `sp` is as it was, unless the `pop` writes it. -/
def Obligations.PushThenPop : Prop :=
  ∀ (s : State) (src dst : StoredReg), Memory.wf s.mem = true → 2 ≤ (s.cell .sp).toNat → (s.cell .sp).toNat ≤ 65534 →
    dst ≠ .pc → dst ≠ .ans →
    ∃ t u, exec (.push (.cell src)) s = .next t ∧ exec (.pop (.cell dst)) t = .next u ∧
      u.cell dst = s.cell src ∧ (dst ≠ .sp → u.cell .sp = s.cell .sp) ∧
      (∀ c, c ≠ dst → c ≠ .sp → u.cell c = s.cell c)

/-- R41 and R50: a `write` to the executing instruction's own address leaves this step's instruction as it was decoded, and the
next fetch there sees the low byte as byte 0 and the high byte as byte 1. -/
def Obligations.StoreSeenByFetch : Prop :=
  ∀ (s : State) (src addr : StoredReg), Memory.wf s.mem = true → s.cell addr = s.cell .pc → (s.cell .pc).toNat ≤ 65532 →
    ∃ t, exec (.write (.cell src) (.cell addr)) s = .next t ∧
      fetch t = .ok { b0 := loByte (s.cell src), b1 := hiByte (s.cell src), b2 := s.wordAtPc.b2, b3 := s.wordAtPc.b3 }

/-- R98, with R99 and R100 for what each sink does: the whole value of `dvc` selects exactly one sink. The fault at an absent device
is the spec's own (D13). -/
def Obligations.DeviceMultiplexer : Prop :=
  ∀ (s : State) (v : Word),
    (s.cell .dvc = 0#16 → s.devices.slot0 = true →
      outWrite v s = .ok { s with history := s.history ++ [{ slot := .slot0, value := v }] }) ∧
    (s.cell .dvc = 0#16 → s.devices.slot0 = false → outWrite v s = .error (.noDevice .slot0)) ∧
    (s.cell .dvc = 1#16 → s.devices.slot1 = true →
      outWrite v s = .ok { s with history := s.history ++ [{ slot := .slot1, value := v }] }) ∧
    (s.cell .dvc = 1#16 → s.devices.slot1 = false → outWrite v s = .error (.noDevice .slot1)) ∧
    (2 ≤ (s.cell .dvc).toNat → outWrite v s = .ok { s with console := s.console ++ [v] })

/-! ### The instructions: results, errors in order, completion -/

/-- R103, with R87 and R61: `halt` sets the halted super-state and nothing else; a powered core that fetches a byte 0 of 0 halts
there, under any maps, with `pc` at the `halt` word. -/
def Obligations.HaltRule : Prop :=
  (∀ s : State, exec .halt s = .next { s with halted := true }) ∧
  (∀ (m : Maps) (s : State), s.active → (s.cell .pc).toNat ≤ 65532 → s.byte (s.cell .pc).toNat = 0#8 →
    ∃ t, stepWith m s = .next t ∧ sameMachine { s with halted := true } t)

/-- R104: `noop` completes everywhere and changes nothing; its step changes `pc` alone, by 4, below the limit of R91. -/
def Obligations.NoopRule : Prop :=
  (∀ s : State, exec .noop s = .next s) ∧
  (∀ (m : Maps) (s : State), s.decodesTo m .noop → (s.cell .pc).toNat ≤ 65531 →
    ∃ t, stepWith m s = .next t ∧ sameMachine (s.setCell .pc (s.cell .pc + 4#16)) t)

/-- R105. The unified error and the order of the checks are the spec's own (D11, D12). -/
def Obligations.AddRule : Prop :=
  ∀ (x y : Reg) (s : State),
    (x = .out → exec (.add x y) s = .next (s.setStatus (.faulted (.forbidden .add .x .out)))) ∧
    (x ≠ .out → y = .out → exec (.add x y) s = .next (s.setStatus (.faulted (.forbidden .add .y .out)))) ∧
    (∀ a b, x = .cell a → y = .cell b →
      (65535 < (s.cell a).toNat + (s.cell b).toNat →
        exec (.add x y) s = .next (s.setStatus (.faulted (.overflow (s.cell a) (s.cell b))))) ∧
      ((s.cell a).toNat + (s.cell b).toNat ≤ 65535 →
        ∃ t, exec (.add x y) s = .next t ∧ (t.cell .ans).toNat = (s.cell a).toNat + (s.cell b).toNat ∧ sameBut [.ans] s t))

/-- R106. The unified error and the order of the checks are the spec's own (D11, D12). -/
def Obligations.SubRule : Prop :=
  ∀ (x y : Reg) (s : State),
    (x = .out → exec (.sub x y) s = .next (s.setStatus (.faulted (.forbidden .sub .x .out)))) ∧
    (x ≠ .out → y = .out → exec (.sub x y) s = .next (s.setStatus (.faulted (.forbidden .sub .y .out)))) ∧
    (∀ a b, x = .cell a → y = .cell b →
      ((s.cell a).toNat < (s.cell b).toNat →
        exec (.sub x y) s = .next (s.setStatus (.faulted (.underflow (s.cell a) (s.cell b))))) ∧
      ((s.cell b).toNat ≤ (s.cell a).toNat →
        ∃ t, exec (.sub x y) s = .next t ∧ (t.cell .ans).toNat + (s.cell b).toNat = (s.cell a).toNat ∧ sameBut [.ans] s t))

/-- R107. The unified error and the order of the checks are the spec's own (D11, D12). -/
def Obligations.MulRule : Prop :=
  ∀ (x y : Reg) (s : State),
    (x = .out → exec (.mul x y) s = .next (s.setStatus (.faulted (.forbidden .mul .x .out)))) ∧
    (x ≠ .out → y = .out → exec (.mul x y) s = .next (s.setStatus (.faulted (.forbidden .mul .y .out)))) ∧
    (∀ a b, x = .cell a → y = .cell b →
      (65535 < (s.cell a).toNat * (s.cell b).toNat →
        exec (.mul x y) s = .next (s.setStatus (.faulted (.overflow (s.cell a) (s.cell b))))) ∧
      ((s.cell a).toNat * (s.cell b).toNat ≤ 65535 →
        ∃ t, exec (.mul x y) s = .next t ∧ (t.cell .ans).toNat = (s.cell a).toNat * (s.cell b).toNat ∧ sameBut [.ans] s t))

/-- R108 for a source and a register destination. The unified error is the spec's own (D11). -/
def Obligations.CopyRegisterRule : Prop :=
  ∀ (src dst : Reg) (s : State),
    (src = .out → exec (.copy src dst) s = .next (s.setStatus (.faulted (.forbidden .copy .src .out)))) ∧
    (src ≠ .out → (dst = .cell .pc ∨ dst = .cell .ans) →
      exec (.copy src dst) s = .next (s.setStatus (.faulted (.forbidden .copy .dst dst)))) ∧
    (∀ a c, src = .cell a → dst = .cell c → c ≠ .pc → c ≠ .ans →
      ∃ t, exec (.copy src dst) s = .next t ∧ t.cell c = s.cell a ∧ sameBut [c] s t)

/-- R108 for the destination `out`: the value goes to the one sink that `dvc` selects. The fault at an absent device is the spec's
own (D13). -/
def Obligations.CopyOutRule : Prop :=
  ∀ (a : StoredReg) (s : State),
    (s.cell .dvc = 0#16 → s.devices.slot0 = true →
      exec (.copy (.cell a) .out) s = .next { s with history := s.history ++ [{ slot := .slot0, value := s.cell a }] }) ∧
    (s.cell .dvc = 1#16 → s.devices.slot1 = true →
      exec (.copy (.cell a) .out) s = .next { s with history := s.history ++ [{ slot := .slot1, value := s.cell a }] }) ∧
    (2 ≤ (s.cell .dvc).toNat →
      exec (.copy (.cell a) .out) s = .next { s with console := s.console ++ [s.cell a] }) ∧
    (s.cell .dvc = 0#16 → s.devices.slot0 = false → exec (.copy (.cell a) .out) s = .fault (.noDevice .slot0)) ∧
    (s.cell .dvc = 1#16 → s.devices.slot1 = false → exec (.copy (.cell a) .out) s = .fault (.noDevice .slot1))

/-- R109, the execute phase: what a taken `jump` leaves in `pc` for the advance, and that one not taken changes nothing. -/
def Obligations.JumpRule : Prop :=
  ∀ (addr cond : Reg) (s : State),
    (addr = .out → exec (.jump addr cond) s = .next (s.setStatus (.faulted (.pseudoRegister .out)))) ∧
    (addr ≠ .out → cond = .out → exec (.jump addr cond) s = .next (s.setStatus (.faulted (.pseudoRegister .out)))) ∧
    (∀ a c, addr = .cell a → cond = .cell c →
      (s.cell c ≠ 0#16 → exec (.jump addr cond) s = .next s) ∧
      (s.cell c = 0#16 → ∃ t, exec (.jump addr cond) s = .next t ∧ sameBut [.pc] s t ∧
        ((s.cell a).toNat < 4 → t.cell .pc = 0#16) ∧
        (4 ≤ (s.cell a).toNat → (t.cell .pc).toNat + 4 = (s.cell a).toNat - (s.cell a).toNat % 4)))

/-- R109, the net effect with the advance of R91: fall through, the target rounded down, or 4 where that is 0 (C2). The fault past
65532 is the spec's own (D8). -/
def Obligations.JumpNetEffect : Prop :=
  ∀ (m : Maps) (s : State) (a c : StoredReg), s.decodesTo m (.jump (.cell a) (.cell c)) →
    (s.cell c ≠ 0#16 → (s.cell .pc).toNat ≤ 65531 →
      ∃ t, stepWith m s = .next t ∧ sameMachine (s.setCell .pc (s.cell .pc + 4#16)) t) ∧
    (s.cell c ≠ 0#16 → 65531 < (s.cell .pc).toNat → stepWith m s = .fault (.pcOverflow (s.cell .pc))) ∧
    (s.cell c = 0#16 → 4 ≤ (s.cell a).toNat →
      ∃ t, stepWith m s = .next t ∧
        sameMachine (s.setCell .pc (BitVec.ofNat 16 ((s.cell a).toNat - (s.cell a).toNat % 4))) t) ∧
    (s.cell c = 0#16 → (s.cell a).toNat < 4 → ∃ t, stepWith m s = .next t ∧ sameMachine (s.setCell .pc 4#16) t)

/-- R110. The unified error is the spec's own (D11). -/
def Obligations.PutRule : Prop :=
  ∀ (v : Word) (dst : Reg) (s : State),
    ((dst = .cell .pc ∨ dst = .cell .ans ∨ dst = .out) →
      exec (.put v dst) s = .next (s.setStatus (.faulted (.forbidden .put .dst dst)))) ∧
    (∀ c, dst = .cell c → c ≠ .pc → c ≠ .ans → ∃ t, exec (.put v dst) s = .next t ∧ t.cell c = v ∧ sameBut [c] s t)

/-- R111. The byte order and the two faults are the spec's own (D9, D6, D7), the unified error too (D11). -/
def Obligations.PushRule : Prop :=
  ∀ (src : Reg) (s : State),
    (s.cell .sp = 0#16 → exec (.push src) s = .next (s.setStatus (.faulted .stackOverflow))) ∧
    (s.cell .sp ≠ 0#16 → src = .out → exec (.push src) s = .next (s.setStatus (.faulted (.forbidden .push .src .out)))) ∧
    (∀ a, src = .cell a →
      (s.cell .sp = 65535#16 → exec (.push src) s = .fault (.memOutOfRange 65535#16)) ∧
      (s.cell .sp = 1#16 → exec (.push src) s = .fault (.spOutOfRange 1#16)) ∧
      (2 ≤ (s.cell .sp).toNat → (s.cell .sp).toNat ≤ 65534 →
        ∃ t, exec (.push src) s = .next t ∧ (t.cell .sp).toNat + 2 = (s.cell .sp).toNat ∧ sameApartMem [.sp] s t ∧
          (Memory.wf s.mem = true →
            (t.byte (s.cell .sp).toNat).toNat = (s.cell a).toNat % 256 ∧
            (t.byte ((s.cell .sp).toNat + 1)).toNat = (s.cell a).toNat / 256 ∧
            (∀ b, b ≠ (s.cell .sp).toNat → b ≠ (s.cell .sp).toNat + 1 → t.byte b = s.byte b))))

/-- R112: the checks in order, `sp` raised before the last one. The byte order and the two faults are the spec's own (D9, D6, D7), the
unified error too (D11). -/
def Obligations.PopRule : Prop :=
  ∀ (dst : Reg) (s : State),
    (s.cell .sp = 65534#16 → exec (.pop dst) s = .next (s.setStatus (.faulted .stackUnderflow))) ∧
    (s.cell .sp = 65535#16 → exec (.pop dst) s = .fault (.spOutOfRange 65535#16)) ∧
    (s.cell .sp = 65533#16 → exec (.pop dst) s = .fault (.memOutOfRange 65535#16)) ∧
    ((s.cell .sp).toNat ≤ 65532 → (dst = .cell .pc ∨ dst = .cell .ans ∨ dst = .out) →
      exec (.pop dst) s = .next ((s.setCell .sp (s.cell .sp + 2#16)).setStatus (.faulted (.forbidden .pop .dst dst)))) ∧
    (∀ c, (s.cell .sp).toNat ≤ 65532 → dst = .cell c → c ≠ .pc → c ≠ .ans →
      ∃ t, exec (.pop dst) s = .next t ∧
        (t.cell c).toNat =
          (s.byte ((s.cell .sp).toNat + 2)).toNat + 256 * (s.byte ((s.cell .sp).toNat + 3)).toNat ∧
        (c ≠ .sp → (t.cell .sp).toNat = (s.cell .sp).toNat + 2) ∧ sameBut [.sp, c] s t)

/-- R113. The fault at 65535, the unified error and the order of the checks are the spec's own (D6, D11, D12). -/
def Obligations.WriteRule : Prop :=
  ∀ (src addr : Reg) (s : State),
    (src = .out → exec (.write src addr) s = .next (s.setStatus (.faulted (.forbidden .write .src .out)))) ∧
    (src ≠ .out → addr = .out → exec (.write src addr) s = .next (s.setStatus (.faulted (.forbidden .write .addr .out)))) ∧
    (∀ v a, src = .cell v → addr = .cell a →
      (s.cell a = 65535#16 → exec (.write src addr) s = .fault (.memOutOfRange 65535#16)) ∧
      (s.cell a ≠ 65535#16 →
        ∃ t, exec (.write src addr) s = .next t ∧ sameApartMem [] s t ∧
          (Memory.wf s.mem = true →
            (t.byte (s.cell a).toNat).toNat = (s.cell v).toNat % 256 ∧
            (t.byte ((s.cell a).toNat + 1)).toNat = (s.cell v).toNat / 256 ∧
            (∀ b, b ≠ (s.cell a).toNat → b ≠ (s.cell a).toNat + 1 → t.byte b = s.byte b))))

/-- R114. The fault at 65535, the refusal of `pc` and `ans`, the unified error and the order of the checks are the spec's own (D6, D10,
D11, D12). -/
def Obligations.ReadRule : Prop :=
  ∀ (addr dst : Reg) (s : State),
    (addr = .out → exec (.read addr dst) s = .next (s.setStatus (.faulted (.forbidden .read .addr .out)))) ∧
    (addr ≠ .out → (dst = .cell .pc ∨ dst = .cell .ans ∨ dst = .out) →
      exec (.read addr dst) s = .next (s.setStatus (.faulted (.forbidden .read .dst dst)))) ∧
    (∀ a c, addr = .cell a → dst = .cell c → c ≠ .pc → c ≠ .ans →
      (s.cell a = 65535#16 → exec (.read addr dst) s = .fault (.memOutOfRange 65535#16)) ∧
      (s.cell a ≠ 65535#16 →
        ∃ t, exec (.read addr dst) s = .next t ∧
          (t.cell c).toNat = (s.byte (s.cell a).toNat).toNat + 256 * (s.byte ((s.cell a).toNat + 1)).toNat ∧
          sameBut [c] s t))

/-! ### Frames, for every instruction and every next state, those that record an error too -/

/-- R25: the execute phase of an instruction leaves every cell as it was but those the table gives it. -/
def Obligations.RegisterFrame : Prop :=
  ∀ (i : Instr) (s t : State), exec i s = .next t → ∀ c, c ∉ Instr.mayWrite i → t.cell c = s.cell c

/-- R35 and R45: only `write` and `push` change memory, and only the two bytes at the address in `addr`, or at `sp`. The forms of
theirs that store nothing and record an error leave every byte: `push` of `out` or at `sp = 0`, `write` with `out` as either
operand. -/
def Obligations.MemoryFrame : Prop :=
  ∀ (s t : State), Memory.wf s.mem = true →
    (∀ i, i.mnemonic ≠ .write → i.mnemonic ≠ .push → exec i s = .next t → ∀ b, t.byte b = s.byte b) ∧
    (∀ src, exec (.push src) s = .next t →
      (∀ b, b ≠ (s.cell .sp).toNat → b ≠ (s.cell .sp).toNat + 1 → t.byte b = s.byte b) ∧
      (src = .out ∨ s.cell .sp = 0#16 → ∀ b, t.byte b = s.byte b)) ∧
    (∀ src addr, exec (.write src addr) s = .next t →
      (∀ a, addr = .cell a → ∀ b, b ≠ (s.cell a).toNat → b ≠ (s.cell a).toNat + 1 → t.byte b = s.byte b) ∧
      (src = .out ∨ addr = .out → ∀ b, t.byte b = s.byte b))

/-- R27, R30 and R33: only `halt` changes the super-state; the status is kept or records one of the document's own errors; the host's
device supply is not the core's to change. -/
def Obligations.ControlFrame : Prop :=
  ∀ (i : Instr) (s t : State), exec i s = .next t →
    (i ≠ .halt → t.halted = s.halted) ∧
    (t.status = s.status ∨ ∃ e, e.fault? = none ∧ t.status = .faulted e) ∧
    t.devices = s.devices ∧ t.schedule = s.schedule

/-- R18, R28 and R45: the console and the output history change only by `copy` to `out`, by one value at the end of one of them. -/
def Obligations.OutputFrame : Prop :=
  ∀ (i : Instr) (s t : State), exec i s = .next t →
    (t.console = s.console ∧ t.history = s.history) ∨
    ∃ a, i = .copy (.cell a) .out ∧
      ((t.console = s.console ++ [s.cell a] ∧ t.history = s.history ∧ 2 ≤ (s.cell .dvc).toNat) ∨
       (∃ k, t.console = s.console ∧ t.history = s.history ++ [{ slot := k, value := s.cell a }] ∧
          s.devices.present k = true ∧ (k = .slot0 ↔ s.cell .dvc = 0#16) ∧ (k = .slot1 ↔ s.cell .dvc = 1#16)))

/-! ### Rules of the whole machine -/

/-- R19: a step changes `ans` only where the word at `pc` is an `add`, a `sub` or a `mul`. -/
def Obligations.OnlyArithmeticWritesAns : Prop :=
  ∀ (m : Maps) (s t : State), stepWith m s = .next t → t.cell .ans ≠ s.cell .ans →
    ∃ x y, decode m s.wordAtPc = .ok (.add x y) ∨ decode m s.wordAtPc = .ok (.sub x y) ∨ decode m s.wordAtPc = .ok (.mul x y)

/-- R20: a step leaves `pc` as it is, or adds 4, or runs a taken `jump`. -/
def Obligations.OnlyJumpAndAdvanceWritePc : Prop :=
  ∀ (m : Maps) (s t : State), stepWith m s = .next t →
    t.cell .pc = s.cell .pc ∨ t.cell .pc = s.cell .pc + 4#16 ∨
      ∃ a c, decode m s.wordAtPc = .ok (.jump (.cell a) (.cell c)) ∧ s.cell c = 0#16

/-- R27 and R126: a step halts the core only by `halt`, and nothing powers it again. -/
def Obligations.HaltedIsEnteredOnlyByHalt : Prop :=
  ∀ (m : Maps) (s t : State), stepWith m s = .next t →
    (s.halted = true → t = s) ∧
    (s.halted = false → t.halted = true → decode m s.wordAtPc = .ok .halt)

/-- R28, R29: the console and the output history only grow, by at most one entry in a step, in one of the two. -/
def Obligations.OutputsOnlyGrow : Prop :=
  ∀ (m : Maps) (s t : State), stepWith m s = .next t →
    ∃ vs es, t.console = s.console ++ vs ∧ t.history = s.history ++ es ∧ vs.length + es.length ≤ 1

/-- Every instruction has its meaning: no execute phase is refused (R2, R90). -/
def Obligations.NoInstructionIsRefused : Prop := ∀ (i : Instr) (s : State) (n : Refusal), exec i s ≠ .refused n

/-- R115, rows 12, 13 and 15, with R98 for the slot: the model faults of the execute phase, each with the instruction and the condition that raises it. They
are the spec's own (D6, D7, D13). -/
def Obligations.ExecFaultReasons : Prop :=
  ∀ (i : Instr) (s : State) (f : Fault), exec i s = .fault f →
    (f = .memOutOfRange 65535#16 ∧
      ((∃ a, i = .push (.cell a) ∧ s.cell .sp = 65535#16) ∨ (∃ dst, i = .pop dst ∧ s.cell .sp = 65533#16) ∨
       (∃ v a, i = .write (.cell v) (.cell a) ∧ s.cell a = 65535#16) ∨
       (∃ a c, i = .read (.cell a) (.cell c) ∧ s.cell a = 65535#16))) ∨
    (f = .spOutOfRange 1#16 ∧ ∃ a, i = .push (.cell a) ∧ s.cell .sp = 1#16) ∨
    (f = .spOutOfRange 65535#16 ∧ ∃ dst, i = .pop dst ∧ s.cell .sp = 65535#16) ∨
    (∃ k a, f = .noDevice k ∧ i = .copy (.cell a) .out ∧ s.devices.present k = false ∧
      (k = .slot0 ∧ s.cell .dvc = 0#16 ∨ k = .slot1 ∧ s.cell .dvc = 1#16))

/-- R21 and R31: every step, under any maps, keeps `pc` a multiple of 4 and memory in its canonical form, from every state that has
them. -/
def Obligations.EveryStepKeepsInv : Prop :=
  (∀ s t : State, s.Inv → step s = .next t → t.Inv) ∧
  (∀ (m : Maps) (s t : State), s.Inv → stepWith m s = .next t → t.Inv)

/-- The invariant holds right after reset, for every launch value and supply (R131). -/
def Obligations.InvAfterReset : Prop :=
  State.reset.Inv ∧ ∀ (l : Launch) (d : DeviceSlots) (ds : List DeviceSlots), (State.launch l d ds).Inv

/-- R89: from a state with the invariant a fetch never leaves memory, so the one fault that a step can raise besides its instruction's
own are an unknown register byte and the advance from 65532. -/
def Obligations.StepFaultReasons : Prop :=
  ∀ (m : Maps) (s : State) (f : Fault), s.Inv → s.active → stepWith m s = .fault f →
    (∃ b, decode m s.wordAtPc = .error (.badRegister b) ∧ f = .badRegister b) ∨
    (∃ i, decode m s.wordAtPc = .ok i ∧
      (exec i s = .fault f ∨ (f = .pcOverflow 65532#16 ∧ s.cell .pc = 65532#16 ∧ i ≠ .halt)))

/-- R28, R29 and R33: no program can observe the console or the output history: a step from two states that differ only there has the
same outcome, but for those two. -/
def Obligations.OutputsAreNotObservable : Prop :=
  ∀ (m : Maps) (s : State) (console : List Word) (history : List DeviceEvent),
    (∀ t, stepWith m s = .next t → ∃ console' history',
      stepWith m { s with console := console, history := history } = .next { t with console := console', history := history' }) ∧
    (∀ f, stepWith m s = .fault f → stepWith m { s with console := console, history := history } = .fault f) ∧
    (∀ n, stepWith m s = .refused n → stepWith m { s with console := console, history := history } = .refused n)

/-! ### Reset and load -/

/-- R131 and R32, for every launch value and device supply. The empty console and history and the status are the spec's own (D14, D15,
D21). -/
def Obligations.ResetValues : Prop :=
  ∀ (l : Launch) (d : DeviceSlots) (ds : List DeviceSlots),
    let s := State.launch l d ds
    s.cell .pc = 0#16 ∧ s.cell .sp = 65534#16 ∧ s.halted = false ∧ s.status = .running ∧ (∀ a, s.byte a = 0#8) ∧
    s.console = [] ∧ s.history = [] ∧
    s.cell .gp0 = l.gp0 ∧ s.cell .gp1 = l.gp1 ∧ s.cell .gp2 = l.gp2 ∧ s.cell .gp3 = l.gp3 ∧ s.cell .gp4 = l.gp4 ∧
    s.cell .gp5 = l.gp5 ∧ s.cell .gp6 = l.gp6 ∧ s.cell .gp7 = l.gp7 ∧ s.cell .ans = l.ans ∧ s.cell .dvc = l.dvc

/-- The model's choice where R32 gives no value: the launch values of State.reset are 0, both devices are present, and no later supply is
listed (assumption logs 1 and 13). -/
def Obligations.ResetChoices : Prop :=
  (∀ c, c ≠ .sp → State.reset.cell c = 0#16) ∧ State.reset.devices = { slot0 := true, slot1 := true } ∧ State.reset.schedule = []

/-- R132: a program of 65536 bytes or more is refused; a shorter one fills memory from 0, every other byte and everything else staying as
it was. -/
def Obligations.LoadFillsMemory : Prop :=
  ∀ (program : List Byte) (s : State), Memory.wf s.mem = true →
    (65536 ≤ program.length → load program s = .error .programTooLarge) ∧
    (program.length < 65536 → ∃ t, load program s = .ok t ∧ Memory.wf t.mem = true ∧ sameApartMem [] s t ∧
      (∀ a, (h : a < program.length) → t.byte a = program[a]) ∧
      (∀ a, program.length ≤ a → t.byte a = s.byte a))

/-! ### The text form and the assembler -/

/-- R76: parsing what `print` writes gives the instruction back. The printed form is the spec's own (D23). -/
def Obligations.ParsePrintRoundTrip : Prop := ∀ i : Instr, parse (print i) = .ok i

/-- R78, R80, R83: in a successful assembly the instructions' addresses are 0, 4, 8 and so on, in order, and every source line is
kept. -/
def Obligations.AssembledAddresses : Prop :=
  ∀ (source : Text) (p : Program), assemble source = .ok p →
    p.lineOf.map Prod.fst = (List.range p.instrs.length).map (fun k => 4 * k) ∧ p.source = lines source

/-- R77 to R83 with R76: the printed lines of a list of instructions, joined by line feeds, assemble to that list. -/
def Obligations.AssemblePrintedProgram : Prop :=
  ∀ is : List Instr, ∃ p, assemble (List.intercalate ['\n'] (is.map print)) = .ok p ∧ p.instrs = is

/-- R82 and R133: the loader of source text loads what was assembled, encoded; a compile error loads nothing. -/
def Obligations.LoadSourceRule : Prop :=
  ∀ (m : Maps) (source : Text) (s : State),
    (∀ e, assemble source = .error e → loadSource m source s = .error (.compile e)) ∧
    (∀ p, assemble source = .ok p → loadSource m source s = load (encodeProgram m p.instrs) s ∧
      (encodeProgram m p.instrs).length = 4 * p.instrs.length)
end

