-- ==== Sys2Proof/Laws/Codec.lean ====
section
/-! SUPPORT. The encoding maps: what admissibility gives (R58, R59), and the look-ups of decode (R60). -/

namespace Sys2Proof

/-- The size test of `load` (R132). -/
theorem fitsMemory_iff {program : List Byte} : fitsMemory program = true ↔ program.length < 65536 := decide_eq_true_iff

theorem Mnemonic.mem_all (k : Mnemonic) : k ∈ Mnemonic.all := by cases k <;> decide

theorem Reg.mem_all (r : Reg) : r ∈ Reg.all := by
  cases r with
  | out => decide
  | cell c => cases c <;> decide

/-- A find by the value of a function gives back the element, where the function separates the list's elements. -/
theorem find_of_nodup_map {α : Type} (f : α → Byte) (l : List α) (h : (l.map f).Nodup) {x : α} (hx : x ∈ l) :
    l.find? (fun y => f y == f x) = some x := by
  induction l with
  | nil => cases hx
  | cons y ys ih =>
    rw [List.map_cons, List.nodup_cons] at h
    by_cases hy : f y = f x
    · have : y = x := by
        rcases List.mem_cons.1 hx with rfl | hm
        · rfl
        · exact absurd (hy ▸ List.mem_map_of_mem hm) h.1
      simp [this]
    · rw [List.find?_cons_of_neg (by simpa using hy)]
      exact ih h.2 ((List.mem_cons.1 hx).resolve_left (fun e => hy (e ▸ rfl)))

theorem Maps.admissible_iff {m : Maps} :
    m.admissible = true ↔ m.opcode .halt = 0#8 ∧ (Mnemonic.all.map m.opcode).Nodup ∧ (Reg.all.map m.regId).Nodup := by
  simp [Maps.admissible, Maps.haltIsZero, Maps.opcodesDistinct, Maps.regIdsDistinct, and_assoc]

theorem Maps.opcode_halt {m : Maps} (h : m.admissible = true) : m.opcode .halt = 0#8 := (Maps.admissible_iff.1 h).1

/-- The mnemonic found for its own opcode. -/
theorem Maps.mnemonicOf_opcode {m : Maps} (h : m.admissible = true) (k : Mnemonic) :
    m.mnemonicOf (m.opcode k) = some k :=
  find_of_nodup_map m.opcode _ (Maps.admissible_iff.1 h).2.1 (Mnemonic.mem_all k)

/-- The register found for its own id. -/
theorem Maps.regOf_regId {m : Maps} (h : m.admissible = true) (r : Reg) : m.regOf (m.regId r) = some r :=
  find_of_nodup_map m.regId _ (Maps.admissible_iff.1 h).2.2 (Reg.mem_all r)

/-- A register found is one whose id the byte is. -/
theorem Maps.regId_of_regOf {m : Maps} {b : Byte} {r : Reg} (h : m.regOf b = some r) : m.regId r = b := by
  simpa using List.find?_some h

/-- A mnemonic found is one whose opcode the byte is. -/
theorem Maps.opcode_of_mnemonicOf {m : Maps} {b : Byte} {k : Mnemonic} (h : m.mnemonicOf b = some k) : m.opcode k = b := by
  simpa using List.find?_some h

theorem Maps.mnemonicOf_none {m : Maps} {b : Byte} : m.mnemonicOf b = none ↔ ∀ k, m.opcode k ≠ b := by
  simp [Maps.mnemonicOf, List.find?_eq_none, Mnemonic.mem_all]

theorem Maps.regOf_none {m : Maps} {b : Byte} : m.regOf b = none ↔ ∀ r, m.regId r ≠ b := by
  simp [Maps.regOf, List.find?_eq_none, Reg.mem_all]

/-- Distinct mnemonics have distinct opcodes (R58 constraint 2). -/
theorem Maps.opcode_injective {m : Maps} (h : m.admissible = true) {k k' : Mnemonic} (e : m.opcode k = m.opcode k') : k = k' := by
  have h1 := Maps.mnemonicOf_opcode h k
  rw [e, Maps.mnemonicOf_opcode h k'] at h1
  exact (Option.some.inj h1).symm

/-- No mnemonic but `halt` has opcode 0 (R58 constraint 3). -/
theorem Maps.opcode_ne_zero {m : Maps} (h : m.admissible = true) {k : Mnemonic} (hk : k ≠ .halt) : m.opcode k ≠ 0#8 :=
  fun e => hk (Maps.opcode_injective h (e.trans (Maps.opcode_halt h).symm))

/-- A word whose byte 0 is a mnemonic's opcode goes to that mnemonic's operands (R60). -/
theorem decode_of_opcode {m : Maps} (h : m.admissible = true) {w : InstrWord} {k : Mnemonic} (hk : m.opcode k = w.b0) :
    decode m w = decodeOperands m k w := by
  by_cases h0 : w.b0 = 0#8
  · have : k = .halt := Maps.opcode_injective h (by rw [hk, h0, Maps.opcode_halt h])
    rw [this, decode, if_pos h0]
    rfl
  · have hf : m.mnemonicOf w.b0 = some k := hk ▸ Maps.mnemonicOf_opcode h k
    simp only [decode, if_neg h0, hf]

/-- The bytes of a value as numbers (R38). -/
theorem toNat_loByte (v : Word) : (loByte v).toNat = v.toNat % 256 := by simp [loByte, BitVec.extractLsb'_toNat]

theorem toNat_hiByte (v : Word) : (hiByte v).toNat = v.toNat / 256 := by
  have := v.isLt
  simp only [hiByte, BitVec.extractLsb'_toNat, Nat.shiftRight_eq_div_pow]
  omega

/-- Two bytes as one number, low byte first (R36). -/
theorem toNat_append (a b : Byte) : (a ++ b : BitVec 16).toNat = b.toNat + 256 * a.toNat := by
  have ha := a.isLt
  have hb := b.isLt
  rw [BitVec.toNat_append, ← Nat.shiftLeft_add_eq_or_of_lt hb, Nat.shiftLeft_eq]
  omega

/-- The low and the high byte of a value, put together again. -/
@[simp] theorem hiByte_append_loByte (v : Word) : (hiByte v ++ loByte v : BitVec 16) = v := by
  apply BitVec.eq_of_toNat_eq
  rw [toNat_append, toNat_loByte, toNat_hiByte]
  omega

theorem loByte_append (a b : Byte) : loByte (a ++ b : BitVec 16) = b := by
  have := b.isLt
  apply BitVec.eq_of_toNat_eq
  rw [toNat_loByte, toNat_append]
  omega

theorem hiByte_append (a b : Byte) : hiByte (a ++ b : BitVec 16) = a := by
  have := b.isLt
  apply BitVec.eq_of_toNat_eq
  rw [toNat_hiByte, toNat_append]
  omega

end Sys2Proof
end

