-- ==== Sys2Proof/Laws/State.lean ====
section
/-! SUPPORT. One lemma per field per update of the state, and the two laws of the register file. -/

namespace Sys2Proof.Machine

/-! ### The register file -/

@[simp] theorem Regs.get_set_same (r : Regs) (c : StoredReg) (v : Word) : (r.set c v).get c = v := by cases c <;> rfl

@[simp] theorem Regs.get_set_ne (r : Regs) {c d : StoredReg} (v : Word) (h : d ≠ c) : (r.set c v).get d = r.get d := by
  cases c <;> cases d <;> first | rfl | exact absurd rfl h

/-- Storing the value a cell holds changes nothing. -/
@[simp] theorem Regs.set_get (r : Regs) (c : StoredReg) : r.set c (r.get c) = r := by cases c <;> rfl

/-! ### setCell -/

@[simp] theorem State.cell_setCell_same (s : State) (c : StoredReg) (v : Word) : (s.setCell c v).cell c = v :=
  Regs.get_set_same s.regs c v

@[simp] theorem State.cell_setCell_ne (s : State) {c d : StoredReg} (v : Word) (h : d ≠ c) :
    (s.setCell c v).cell d = s.cell d := Regs.get_set_ne s.regs v h

@[simp] theorem State.halted_setCell (s : State) (c : StoredReg) (v : Word) : (s.setCell c v).halted = s.halted := rfl
@[simp] theorem State.status_setCell (s : State) (c : StoredReg) (v : Word) : (s.setCell c v).status = s.status := rfl
@[simp] theorem State.mem_setCell (s : State) (c : StoredReg) (v : Word) : (s.setCell c v).mem = s.mem := rfl
@[simp] theorem State.byte_setCell (s : State) (c : StoredReg) (v : Word) (a : Nat) : (s.setCell c v).byte a = s.byte a := rfl
@[simp] theorem State.console_setCell (s : State) (c : StoredReg) (v : Word) : (s.setCell c v).console = s.console := rfl
@[simp] theorem State.history_setCell (s : State) (c : StoredReg) (v : Word) : (s.setCell c v).history = s.history := rfl
@[simp] theorem State.devices_setCell (s : State) (c : StoredReg) (v : Word) : (s.setCell c v).devices = s.devices := rfl
@[simp] theorem State.schedule_setCell (s : State) (c : StoredReg) (v : Word) : (s.setCell c v).schedule = s.schedule := rfl

/-! ### setStatus -/

@[simp] theorem State.status_setStatus (s : State) (st : Status) : (s.setStatus st).status = st := rfl
@[simp] theorem State.cell_setStatus (s : State) (st : Status) (c : StoredReg) : (s.setStatus st).cell c = s.cell c := rfl
@[simp] theorem State.halted_setStatus (s : State) (st : Status) : (s.setStatus st).halted = s.halted := rfl
@[simp] theorem State.mem_setStatus (s : State) (st : Status) : (s.setStatus st).mem = s.mem := rfl
@[simp] theorem State.byte_setStatus (s : State) (st : Status) (a : Nat) : (s.setStatus st).byte a = s.byte a := rfl
@[simp] theorem State.console_setStatus (s : State) (st : Status) : (s.setStatus st).console = s.console := rfl
@[simp] theorem State.history_setStatus (s : State) (st : Status) : (s.setStatus st).history = s.history := rfl
@[simp] theorem State.devices_setStatus (s : State) (st : Status) : (s.setStatus st).devices = s.devices := rfl
@[simp] theorem State.schedule_setStatus (s : State) (st : Status) : (s.setStatus st).schedule = s.schedule := rfl

/-! ### setHalted -/

@[simp] theorem State.halted_setHalted (s : State) (b : Bool) : (s.setHalted b).halted = b := rfl
@[simp] theorem State.cell_setHalted (s : State) (b : Bool) (c : StoredReg) : (s.setHalted b).cell c = s.cell c := rfl
@[simp] theorem State.status_setHalted (s : State) (b : Bool) : (s.setHalted b).status = s.status := rfl
@[simp] theorem State.mem_setHalted (s : State) (b : Bool) : (s.setHalted b).mem = s.mem := rfl
@[simp] theorem State.byte_setHalted (s : State) (b : Bool) (a : Nat) : (s.setHalted b).byte a = s.byte a := rfl
@[simp] theorem State.console_setHalted (s : State) (b : Bool) : (s.setHalted b).console = s.console := rfl
@[simp] theorem State.history_setHalted (s : State) (b : Bool) : (s.setHalted b).history = s.history := rfl
@[simp] theorem State.devices_setHalted (s : State) (b : Bool) : (s.setHalted b).devices = s.devices := rfl
@[simp] theorem State.schedule_setHalted (s : State) (b : Bool) : (s.setHalted b).schedule = s.schedule := rfl

/-! ### setMem and setByte -/

@[simp] theorem State.mem_setMem (s : State) (m : Memory) : (s.setMem m).mem = m := rfl
@[simp] theorem State.cell_setMem (s : State) (m : Memory) (c : StoredReg) : (s.setMem m).cell c = s.cell c := rfl
@[simp] theorem State.halted_setMem (s : State) (m : Memory) : (s.setMem m).halted = s.halted := rfl
@[simp] theorem State.status_setMem (s : State) (m : Memory) : (s.setMem m).status = s.status := rfl
@[simp] theorem State.console_setMem (s : State) (m : Memory) : (s.setMem m).console = s.console := rfl
@[simp] theorem State.history_setMem (s : State) (m : Memory) : (s.setMem m).history = s.history := rfl
@[simp] theorem State.devices_setMem (s : State) (m : Memory) : (s.setMem m).devices = s.devices := rfl
@[simp] theorem State.schedule_setMem (s : State) (m : Memory) : (s.setMem m).schedule = s.schedule := rfl

@[simp] theorem State.mem_setByte (s : State) (a : Nat) (v : Byte) : (s.setByte a v).mem = Memory.write s.mem a v := rfl
@[simp] theorem State.cell_setByte (s : State) (a : Nat) (v : Byte) (c : StoredReg) : (s.setByte a v).cell c = s.cell c := rfl
@[simp] theorem State.halted_setByte (s : State) (a : Nat) (v : Byte) : (s.setByte a v).halted = s.halted := rfl
@[simp] theorem State.status_setByte (s : State) (a : Nat) (v : Byte) : (s.setByte a v).status = s.status := rfl
@[simp] theorem State.console_setByte (s : State) (a : Nat) (v : Byte) : (s.setByte a v).console = s.console := rfl
@[simp] theorem State.history_setByte (s : State) (a : Nat) (v : Byte) : (s.setByte a v).history = s.history := rfl
@[simp] theorem State.devices_setByte (s : State) (a : Nat) (v : Byte) : (s.setByte a v).devices = s.devices := rfl
@[simp] theorem State.schedule_setByte (s : State) (a : Nat) (v : Byte) : (s.setByte a v).schedule = s.schedule := rfl

/-! ### consoleAppend and recordEvent -/

@[simp] theorem console_consoleAppend (s : State) (v : Word) : (consoleAppend v s).console = s.console ++ [v] := rfl
@[simp] theorem cell_consoleAppend (s : State) (v : Word) (c : StoredReg) : (consoleAppend v s).cell c = s.cell c := rfl
@[simp] theorem halted_consoleAppend (s : State) (v : Word) : (consoleAppend v s).halted = s.halted := rfl
@[simp] theorem status_consoleAppend (s : State) (v : Word) : (consoleAppend v s).status = s.status := rfl
@[simp] theorem mem_consoleAppend (s : State) (v : Word) : (consoleAppend v s).mem = s.mem := rfl
@[simp] theorem byte_consoleAppend (s : State) (v : Word) (a : Nat) : (consoleAppend v s).byte a = s.byte a := rfl
@[simp] theorem history_consoleAppend (s : State) (v : Word) : (consoleAppend v s).history = s.history := rfl
@[simp] theorem devices_consoleAppend (s : State) (v : Word) : (consoleAppend v s).devices = s.devices := rfl
@[simp] theorem schedule_consoleAppend (s : State) (v : Word) : (consoleAppend v s).schedule = s.schedule := rfl

@[simp] theorem history_recordEvent (s : State) (e : DeviceEvent) : (recordEvent e s).history = s.history ++ [e] := rfl
@[simp] theorem cell_recordEvent (s : State) (e : DeviceEvent) (c : StoredReg) : (recordEvent e s).cell c = s.cell c := rfl
@[simp] theorem halted_recordEvent (s : State) (e : DeviceEvent) : (recordEvent e s).halted = s.halted := rfl
@[simp] theorem status_recordEvent (s : State) (e : DeviceEvent) : (recordEvent e s).status = s.status := rfl
@[simp] theorem mem_recordEvent (s : State) (e : DeviceEvent) : (recordEvent e s).mem = s.mem := rfl
@[simp] theorem byte_recordEvent (s : State) (e : DeviceEvent) (a : Nat) : (recordEvent e s).byte a = s.byte a := rfl
@[simp] theorem console_recordEvent (s : State) (e : DeviceEvent) : (recordEvent e s).console = s.console := rfl
@[simp] theorem devices_recordEvent (s : State) (e : DeviceEvent) : (recordEvent e s).devices = s.devices := rfl
@[simp] theorem schedule_recordEvent (s : State) (e : DeviceEvent) : (recordEvent e s).schedule = s.schedule := rfl

/-! ### supply and nextSupply -/

@[simp] theorem devices_supply (s : State) (d : DeviceSlots) : (supply d s).devices = d := rfl
@[simp] theorem cell_supply (s : State) (d : DeviceSlots) (c : StoredReg) : (supply d s).cell c = s.cell c := rfl
@[simp] theorem halted_supply (s : State) (d : DeviceSlots) : (supply d s).halted = s.halted := rfl
@[simp] theorem status_supply (s : State) (d : DeviceSlots) : (supply d s).status = s.status := rfl
@[simp] theorem mem_supply (s : State) (d : DeviceSlots) : (supply d s).mem = s.mem := rfl
@[simp] theorem console_supply (s : State) (d : DeviceSlots) : (supply d s).console = s.console := rfl
@[simp] theorem history_supply (s : State) (d : DeviceSlots) : (supply d s).history = s.history := rfl
@[simp] theorem schedule_supply (s : State) (d : DeviceSlots) : (supply d s).schedule = s.schedule := rfl

@[simp] theorem cell_nextSupply (s : State) (c : StoredReg) : (nextSupply s).cell c = s.cell c := by
  unfold nextSupply; split <;> rfl
@[simp] theorem halted_nextSupply (s : State) : (nextSupply s).halted = s.halted := by unfold nextSupply; split <;> rfl
@[simp] theorem status_nextSupply (s : State) : (nextSupply s).status = s.status := by unfold nextSupply; split <;> rfl
@[simp] theorem mem_nextSupply (s : State) : (nextSupply s).mem = s.mem := by unfold nextSupply; split <;> rfl
@[simp] theorem byte_nextSupply (s : State) (a : Nat) : (nextSupply s).byte a = s.byte a := by unfold nextSupply; split <;> rfl
@[simp] theorem console_nextSupply (s : State) : (nextSupply s).console = s.console := by unfold nextSupply; split <;> rfl
@[simp] theorem history_nextSupply (s : State) : (nextSupply s).history = s.history := by unfold nextSupply; split <;> rfl

/-- With no schedule the host's supply stays as it is (R136, assumption log 13). -/
theorem nextSupply_of_nil (s : State) (h : s.schedule = []) : nextSupply s = s := by unfold nextSupply; rw [h]

end Sys2Proof.Machine
end

