-- ==== Sys2Proof/Laws/Memory.lean ====
section
/-! SUPPORT. Memory: the canonical form is kept by every operation, a read after a write gives the value written, and a
write leaves every other address alone. -/

namespace Sys2Proof.Machine

theorem Memory.wfFrom_cons {lo k : Nat} {b : Byte} {rest : Memory} :
    Memory.wfFrom lo ((k, b) :: rest) = true ↔
      lo ≤ k ∧ k < Config.memorySize ∧ b ≠ Memory.unlisted ∧ Memory.wfFrom (k + 1) rest = true := by
  simp [Memory.wfFrom, and_assoc]

/-- A canonical memory stays canonical seen from a lower start. -/
theorem Memory.wfFrom_mono {lo lo' : Nat} {m : Memory} (h : Memory.wfFrom lo m = true) (hl : lo' ≤ lo) :
    Memory.wfFrom lo' m = true := by
  cases m with
  | nil => rfl
  | cons e rest =>
    obtain ⟨k, b⟩ := e
    rw [Memory.wfFrom_cons] at h ⊢
    exact ⟨hl.trans h.1, h.2⟩

/-- Below its start a canonical memory lists nothing. -/
theorem Memory.read_below {lo a : Nat} {m : Memory} (h : Memory.wfFrom lo m = true) (ha : a < lo) :
    Memory.read m a = Memory.unlisted := by
  induction m generalizing lo with
  | nil => rfl
  | cons e rest ih =>
    obtain ⟨k, b⟩ := e
    rw [Memory.wfFrom_cons] at h
    have hk : k ≠ a := by omega
    simp only [Memory.read, if_neg hk]
    exact ih h.2.2.2 (by omega)

theorem Memory.wfFrom_write {lo a : Nat} {m : Memory} (v : Byte) (h : Memory.wfFrom lo m = true) (hl : lo ≤ a)
    (ha : a < Config.memorySize) : Memory.wfFrom lo (Memory.write m a v) = true := by
  induction m generalizing lo with
  | nil =>
    simp only [Memory.write]
    split
    · rfl
    · rename_i hv
      exact Memory.wfFrom_cons.2 ⟨hl, ha, hv, rfl⟩
  | cons e rest ih =>
    obtain ⟨k, b⟩ := e
    have hc := Memory.wfFrom_cons.1 h
    simp only [Memory.write]
    split
    · split
      · exact h
      · rename_i hak hv
        exact Memory.wfFrom_cons.2 ⟨hl, ha, hv, Memory.wfFrom_cons.2 ⟨by omega, hc.2⟩⟩
    · split
      · rename_i hak
        subst hak
        split
        · exact Memory.wfFrom_mono hc.2.2.2 (by omega)
        · rename_i hv
          exact Memory.wfFrom_cons.2 ⟨hl, ha, hv, hc.2.2.2⟩
      · exact Memory.wfFrom_cons.2 ⟨hc.1, hc.2.1, hc.2.2.1, ih hc.2.2.2 (by omega)⟩

/-- Storing a byte inside the address space keeps the canonical form. -/
theorem Memory.wf_write {a : Nat} {m : Memory} (v : Byte) (h : Memory.wf m = true) (ha : a < Config.memorySize) :
    Memory.wf (Memory.write m a v) = true := Memory.wfFrom_write v h (Nat.zero_le a) ha

theorem Memory.read_write_from {lo a b : Nat} {m : Memory} (v : Byte) (h : Memory.wfFrom lo m = true) :
    Memory.read (Memory.write m a v) b = if b = a then v else Memory.read m b := by
  induction m generalizing lo with
  | nil =>
    by_cases hv : v = Memory.unlisted
    · simp [Memory.write, hv, Memory.read]
    · simp only [Memory.write, if_neg hv, Memory.read, eq_comm (a := a)]
  | cons e rest ih =>
    obtain ⟨k, x⟩ := e
    have hc := Memory.wfFrom_cons.1 h
    simp only [Memory.write]
    split
    · rename_i hak
      split
      · rename_i hv
        split
        · rename_i hb
          subst hb
          have hk : k ≠ b := by omega
          simp only [Memory.read, if_neg hk, hv]
          exact Memory.read_below hc.2.2.2 (by omega)
        · rfl
      · simp only [Memory.read, eq_comm (a := a)]
    · split
      · rename_i hak
        subst hak
        split
        · rename_i hv
          by_cases hb : b = a
          · subst hb
            rw [if_pos rfl, hv]
            exact Memory.read_below hc.2.2.2 (by omega)
          · simp only [Memory.read, if_neg hb, if_neg (Ne.symm hb)]
        · by_cases hb : b = a
          · simp [Memory.read, hb]
          · simp only [Memory.read, if_neg hb, if_neg (Ne.symm hb)]
      · rename_i hne
        by_cases hb : k = b
        · have : b ≠ a := by omega
          simp [Memory.read, hb, this]
        · simp only [Memory.read, if_neg hb]
          exact ih hc.2.2.2

/-- Reading after a write: the value at the address written, every other byte as before (R45, R48). -/
theorem Memory.read_write {a b : Nat} {m : Memory} (v : Byte) (h : Memory.wf m = true) :
    Memory.read (Memory.write m a v) b = if b = a then v else Memory.read m b := Memory.read_write_from v h

/-- Storing bytes inside the address space keeps the canonical form. -/
theorem Memory.wf_writeBytes {a : Nat} {m : Memory} (bytes : List Byte) (h : Memory.wf m = true)
    (ha : a + bytes.length ≤ Config.memorySize) : Memory.wf (Memory.writeBytes m a bytes) = true := by
  induction bytes generalizing a m with
  | nil => exact h
  | cons b rest ih =>
    simp only [List.length_cons] at ha
    exact ih (Memory.wf_write b h (by omega)) (by omega)

/-- Memory after a run of bytes is stored: those bytes from `a` on, every other byte as before (R132). -/
theorem Memory.read_writeBytes {a : Nat} {m : Memory} (bytes : List Byte) (h : Memory.wf m = true)
    (ha : a + bytes.length ≤ Config.memorySize) (b : Nat) :
    Memory.read (Memory.writeBytes m a bytes) b =
      if hb : a ≤ b ∧ b < a + bytes.length then bytes[b - a]'(by omega) else Memory.read m b := by
  induction bytes generalizing a m with
  | nil =>
    rw [dif_neg (by simp only [List.length_nil]; omega)]
    rfl
  | cons x xs ih =>
    simp only [List.length_cons] at ha
    rw [Memory.writeBytes, ih (Memory.wf_write x h (by omega)) (by omega), Memory.read_write _ h]
    simp only [List.length_cons]
    by_cases hb : b = a
    · subst hb
      rw [dif_neg (by omega), if_pos rfl, dif_pos (by omega)]
      simp
    · by_cases hin : a ≤ b ∧ b < a + (xs.length + 1)
      · rw [dif_pos (by omega), dif_pos hin]
        have hs : b - a = (b - (a + 1)) + 1 := by omega
        simp [hs]
      · rw [dif_neg (by omega), if_neg hb, dif_neg hin]

/-- The byte at an address after one byte of the state is stored. -/
theorem State.byte_setByte {s : State} {a b : Nat} (v : Byte) (h : Memory.wf s.mem = true) :
    (s.setByte a v).byte b = if b = a then v else s.byte b := Memory.read_write v h

/-- Memory right after reset is canonical, and every byte reads 0 (R31). -/
theorem Memory.wf_nil : Memory.wf [] = true := rfl

theorem State.byte_launch (l : Launch) (d : DeviceSlots) (ds : List DeviceSlots) (a : Nat) :
    (State.launch l d ds).byte a = 0 := rfl

end Sys2Proof.Machine
end

