-- ==== Sys2Proof/Laws/Ops.lean ====
section
/-! SUPPORT. For each shared operation, what it can do, said once: the lemmas the proofs cite instead of unfolding it. -/

namespace Sys2Proof.Machine

/-! ### Raising and going on -/

/-- A raised error that answers a state is one of the document's own; only the status changes (R93). -/
theorem raise_next {e : Error} {s t : State} :
    raise e s = .next t ↔ e.fault? = none ∧ t = s.setStatus (.faulted e) := by
  unfold raise
  split
  · rename_i f hf
    simp [hf]
  · rename_i hf
    simp [hf, eq_comm]

@[simp] theorem orRaise_ok {α : Type} (s : State) (a : α) (k : α → Result) : orRaise s (.ok a) k = k a := rfl

@[simp] theorem orRaise_error {α : Type} (s : State) (e : Error) (k : α → Result) : orRaise s (.error e) k = raise e s := rfl

/-- Everything a checked continuation can do when it answers a state. -/
theorem orRaise_next {α : Type} {s t : State} {x : Except Error α} {k : α → Result} :
    orRaise s x k = .next t ↔
      (∃ e, x = .error e ∧ e.fault? = none ∧ t = s.setStatus (.faulted e)) ∨ (∃ a, x = .ok a ∧ k a = .next t) := by
  cases x with
  | error e => simp [raise_next]
  | ok a => simp

/-- No operation raises the refusal of an unmodelled instruction: raising answers a state or a fault. -/
theorem raise_ne_refused (e : Error) (s : State) (n : Refusal) : raise e s ≠ .refused n := by
  unfold raise
  split <;> simp

/-- A raised error that stops the step is a model fault (R115, D16). -/
theorem raise_fault {e : Error} {s : State} {f : Fault} : raise e s = .fault f ↔ e.fault? = some f := by
  unfold raise
  split
  · rename_i g hg
    simp [hg]
  · rename_i hg
    simp [hg]

/-- Everything a checked continuation can do when it stops with a fault. -/
theorem orRaise_fault {α : Type} {s : State} {x : Except Error α} {k : α → Result} {f : Fault} :
    orRaise s x k = .fault f ↔ (∃ e, x = .error e ∧ e.fault? = some f) ∨ (∃ a, x = .ok a ∧ k a = .fault f) := by
  cases x with
  | error e => simp [raise_fault]
  | ok a => simp

/-- A checked continuation is refused only by what comes after the check. -/
theorem orRaise_refused {α : Type} {s : State} {x : Except Error α} {k : α → Result} {n : Refusal} :
    orRaise s x k = .refused n ↔ ∃ a, x = .ok a ∧ k a = .refused n := by
  cases x with
  | error e => simp [raise_ne_refused]
  | ok a => simp

/-! ### Operands -/

@[simp] theorem readReg_cell (c : StoredReg) (s : State) : readReg (.cell c) s = .ok (s.cell c) := rfl
@[simp] theorem readReg_out (s : State) : readReg .out s = .error (.pseudoRegister .out) := rfl
@[simp] theorem srcRead_cell (op : Mnemonic) (role : Role) (c : StoredReg) (s : State) :
    srcRead op role (.cell c) s = .ok (s.cell c) := rfl
@[simp] theorem srcRead_out (op : Mnemonic) (role : Role) (s : State) :
    srcRead op role .out s = .error (.forbidden op role .out) := rfl

/-- A failed source read is one of the document's own errors (R94). -/
theorem srcRead_error_fault {op : Mnemonic} {role : Role} {r : Reg} {s : State} {e : Error}
    (h : srcRead op role r s = .error e) : e.fault? = none := by
  cases r <;> cases h
  rfl

/-- A failed generic read is one of the document's own errors (R16). -/
theorem readReg_error_fault {r : Reg} {s : State} {e : Error} (h : readReg r s = .error e) : e.fault? = none := by
  cases r <;> cases h
  rfl

/-- A destination the `put` rules accept is a stored register other than `pc` and `ans` (R95). -/
theorem putDest_ok {op : Mnemonic} {r : Reg} {c : StoredReg} :
    putDest op r = .ok c ↔ r = .cell c ∧ c ≠ .pc ∧ c ≠ .ans := by
  cases r with
  | out => simp [putDest]
  | cell d =>
    simp only [putDest]
    split
    · rename_i h
      constructor
      · intro hx; simp at hx
      · rintro ⟨hd, h1, h2⟩
        cases hd
        exact absurd h (by simp [h1, h2])
    · rename_i h
      simp only [not_or] at h
      constructor
      · intro hx; cases hx; exact ⟨rfl, h⟩
      · rintro ⟨hd, -⟩; cases hd; rfl

/-- A destination the `put` rules refuse is `pc`, `ans` or `out`, and the error names it (R95). -/
theorem putDest_error {op : Mnemonic} {r : Reg} {e : Error} :
    putDest op r = .error e ↔ e = .forbidden op .dst r ∧ (r = .out ∨ r = .cell .pc ∨ r = .cell .ans) := by
  cases r with
  | out => simp [putDest, eq_comm]
  | cell d =>
    simp only [putDest]
    split
    · rename_i h
      simp [h, eq_comm]
    · rename_i h
      simp only [not_or] at h
      simp [h]

/-- A write under the `put` rules changes the one cell it names (R95). -/
theorem putWrite_ok {op : Mnemonic} {r : Reg} {v : Word} {s t : State} :
    putWrite op r v s = .ok t ↔ ∃ c, r = .cell c ∧ c ≠ .pc ∧ c ≠ .ans ∧ t = s.setCell c v := by
  unfold putWrite
  cases h : putDest op r with
  | error e =>
    simp only [reduceCtorEq, false_iff]
    rintro ⟨c, hr, h1, h2, -⟩
    rw [putDest_ok.2 ⟨hr, h1, h2⟩] at h
    cases h
  | ok c =>
    obtain ⟨hr, h1, h2⟩ := putDest_ok.1 h
    constructor
    · intro hx; cases hx; exact ⟨c, hr, h1, h2, rfl⟩
    · rintro ⟨d, hd, -, -, ht⟩
      rw [hr] at hd; cases hd; rw [ht]

theorem putWrite_error {op : Mnemonic} {r : Reg} {v : Word} {s : State} {e : Error} :
    putWrite op r v s = .error e ↔ e = .forbidden op .dst r ∧ (r = .out ∨ r = .cell .pc ∨ r = .cell .ans) := by
  rw [← putDest_error]
  unfold putWrite
  cases h : putDest op r <;> simp

/-! ### The ALU -/

theorem alu_add_ok {a b : Word} (h : a.toNat + b.toNat ≤ Config.maxWord) :
    alu .add a b = .ok (BitVec.ofNat 16 (a.toNat + b.toNat)) := by
  simp [alu, sumOverflows, Nat.not_lt.2 h]

theorem alu_add_overflow {a b : Word} (h : Config.maxWord < a.toNat + b.toNat) : alu .add a b = .error (.overflow a b) := by
  simp [alu, sumOverflows, h]

theorem alu_sub_ok {a b : Word} (h : b.toNat ≤ a.toNat) : alu .sub a b = .ok (BitVec.ofNat 16 (a.toNat - b.toNat)) := by
  simp [alu, differenceUnderflows, Nat.not_lt.2 h]

theorem alu_sub_underflow {a b : Word} (h : a.toNat < b.toNat) : alu .sub a b = .error (.underflow a b) := by
  simp [alu, differenceUnderflows, h]

theorem alu_mul_ok {a b : Word} (h : a.toNat * b.toNat ≤ Config.maxWord) :
    alu .mul a b = .ok (BitVec.ofNat 16 (a.toNat * b.toNat)) := by
  simp [alu, productOverflows, Nat.not_lt.2 h]

theorem alu_mul_overflow {a b : Word} (h : Config.maxWord < a.toNat * b.toNat) : alu .mul a b = .error (.overflow a b) := by
  simp [alu, productOverflows, h]

/-- An error of the ALU is one of the document's own (R96). -/
theorem alu_error_fault {op : AluOp} {a b : Word} {e : Error} (h : alu op a b = .error e) : e.fault? = none := by
  cases op <;> simp only [alu] at h <;> split at h <;> cases h <;> rfl

/-! ### Memory accesses -/

theorem inRange_iff {a : Word} {n : Nat} : inRange a n = true ↔ a.toNat + n - 1 ≤ 65535 := decide_eq_true_iff

/-- A 2-byte access lies inside memory at every address but 65535 (R36, R42). -/
theorem inRange_two {a : Word} : inRange a 2 = true ↔ a ≠ 65535#16 := by
  rw [inRange_iff]
  constructor
  · rintro h rfl
    exact absurd h (by decide)
  · intro h
    have : a.toNat ≠ 65535 := fun hx => h (BitVec.eq_of_toNat_eq hx)
    omega

theorem inRange_two_top : inRange 65535#16 2 = false := by decide

theorem load16_ok {a : Word} {s : State} (h : a ≠ 65535#16) :
    load16 a s = .ok (s.byte (a.toNat + 1) ++ s.byte a.toNat) := by simp [load16, inRange_two.2 h]

theorem store16_ok {a v : Word} {s : State} (h : a ≠ 65535#16) :
    store16 a v s = .ok ((s.setByte a.toNat (loByte v)).setByte (a.toNat + 1) (hiByte v)) := by
  simp [store16, inRange_two.2 h]

theorem load16_error {a : Word} {s : State} {e : Error} :
    load16 a s = .error e ↔ a = 65535#16 ∧ e = .memOutOfRange a := by
  by_cases h : a = 65535#16
  · subst h
    have hl : load16 65535#16 s = .error (.memOutOfRange 65535#16) := by rw [load16, inRange_two_top]; rfl
    rw [hl]
    constructor
    · intro hx; cases hx; exact ⟨rfl, rfl⟩
    · rintro ⟨-, rfl⟩; rfl
  · rw [load16_ok h]
    constructor
    · intro hx; cases hx
    · rintro ⟨hx, -⟩; exact absurd hx h

theorem store16_error {a v : Word} {s : State} {e : Error} :
    store16 a v s = .error e ↔ a = 65535#16 ∧ e = .memOutOfRange a := by
  by_cases h : a = 65535#16
  · subst h
    have hl : store16 65535#16 v s = .error (.memOutOfRange 65535#16) := by rw [store16, inRange_two_top]; rfl
    rw [hl]
    constructor
    · intro hx; cases hx; exact ⟨rfl, rfl⟩
    · rintro ⟨-, rfl⟩; rfl
  · rw [store16_ok h]
    constructor
    · intro hx; cases hx
    · rintro ⟨hx, -⟩; exact absurd hx h

/-- A store answers the state with the two bytes stored, and nothing else (R36, R45). -/
theorem store16_cases {a v : Word} {s t : State} (h : store16 a v s = .ok t) :
    a ≠ 65535#16 ∧ t = (s.setByte a.toNat (loByte v)).setByte (a.toNat + 1) (hiByte v) := by
  unfold store16 at h
  split at h
  · rename_i hr
    cases h
    exact ⟨inRange_two.1 hr, rfl⟩
  · cases h

/-- A 2-byte store keeps the canonical form (R31). -/
theorem store16_wf {a v : Word} {s t : State} (h : store16 a v s = .ok t) (hw : Memory.wf s.mem = true) :
    Memory.wf t.mem = true := by
  obtain ⟨ha, rfl⟩ := store16_cases h
  have hn : a.toNat ≠ 65535 := fun hx => ha (BitVec.eq_of_toNat_eq hx)
  exact Memory.wf_write _ (Memory.wf_write _ hw (by simp only [Config.memorySize]; omega))
    (by simp only [Config.memorySize]; omega)

/-- The bytes after a 2-byte store: the low byte, the high byte, every other one as before (R36, R38). -/
theorem store16_byte {a v : Word} {s t : State} (h : store16 a v s = .ok t) (hw : Memory.wf s.mem = true) (b : Nat) :
    t.byte b = if b = a.toNat + 1 then hiByte v else if b = a.toNat then loByte v else s.byte b := by
  obtain ⟨ha, rfl⟩ := store16_cases h
  have hn : a.toNat ≠ 65535 := fun hx => ha (BitVec.eq_of_toNat_eq hx)
  have hw1 : Memory.wf (s.setByte a.toNat (loByte v)).mem = true :=
    Memory.wf_write _ hw (by simp only [Config.memorySize]; omega)
  rw [State.byte_setByte _ hw1, State.byte_setByte _ hw]

/-! ### The device multiplexer -/

/-- Everything a device write can do when it answers a state (R99). -/
theorem deviceWrite_ok {k : Slot} {v : Word} {s t : State} (h : deviceWrite k v s = .ok t) :
    s.devices.present k = true ∧ t = recordEvent { slot := k, value := v } s := by
  unfold deviceWrite at h
  split at h
  · cases h
    exact ⟨‹_›, rfl⟩
  · cases h

/-- A device write's one error is the absent device (R99). -/
theorem deviceWrite_error {k : Slot} {v : Word} {s : State} {e : Error} (h : deviceWrite k v s = .error e) :
    s.devices.present k = false ∧ e = .noDevice k := by
  unfold deviceWrite at h
  split at h
  · cases h
  · cases h
    exact ⟨by simp_all, rfl⟩

/-- Everything the multiplexer can do when it answers a state: one event to the slot that `dvc` selects, or one value to the
console (R98). -/
theorem outWrite_cases {v : Word} {s t : State} (h : outWrite v s = .ok t) :
    (∃ k, (k = .slot0 ∧ s.cell .dvc = 0#16 ∨ k = .slot1 ∧ s.cell .dvc = 1#16) ∧ s.devices.present k = true ∧
      t = recordEvent { slot := k, value := v } s) ∨
    (s.cell .dvc ≠ 0#16 ∧ s.cell .dvc ≠ 1#16 ∧ t = consoleAppend v s) := by
  unfold outWrite at h
  split at h
  · exact .inl ⟨_, .inl ⟨rfl, ‹_›⟩, deviceWrite_ok h⟩
  split at h
  · exact .inl ⟨_, .inr ⟨rfl, ‹_›⟩, deviceWrite_ok h⟩
  · cases h
    exact .inr ⟨‹_›, ‹_›, rfl⟩

/-- The multiplexer's one error is an absent device in the slot that `dvc` selects (R98, R99). -/
theorem outWrite_error {v : Word} {s : State} {e : Error} (h : outWrite v s = .error e) :
    ∃ k, (k = .slot0 ∧ s.cell .dvc = 0#16 ∨ k = .slot1 ∧ s.cell .dvc = 1#16) ∧ s.devices.present k = false ∧
      e = .noDevice k := by
  unfold outWrite at h
  split at h
  · exact ⟨_, .inl ⟨rfl, ‹_›⟩, deviceWrite_error h⟩
  split at h
  · exact ⟨_, .inr ⟨rfl, ‹_›⟩, deviceWrite_error h⟩
  · cases h

/-- Everything `copy`'s write can do when it answers a state (R108). -/
theorem copyWrite_ok {r : Reg} {v : Word} {s t : State} (h : copyWrite r v s = .ok t) :
    (∃ c, r = .cell c ∧ c ≠ .pc ∧ c ≠ .ans ∧ t = s.setCell c v) ∨ (r = .out ∧ outWrite v s = .ok t) := by
  cases r with
  | out => exact .inr ⟨rfl, h⟩
  | cell c =>
    simp only [copyWrite] at h
    split at h
    · cases h
    · rename_i hc
      simp only [not_or] at hc
      cases h
      exact .inl ⟨c, rfl, hc.1, hc.2, rfl⟩

/-! ### Fetch and advance -/

/-- The advance adds 4 to `pc` and touches nothing else; it runs out only above 65531 (R91). -/
theorem advance_ok {s : State} (h : (s.cell .pc).toNat ≤ 65531) : advance s = .ok (s.setCell .pc (s.cell .pc + 4#16)) := by
  have : ¬ (s.cell .pc).toNat + Config.instrBytes > Config.maxWord := by simp only [Config.instrBytes, Config.maxWord]; omega
  simp [advance, this]

/-- Past 65531 the advance is the fault of R91. -/
theorem advance_overflow {s : State} (h : 65531 < (s.cell .pc).toNat) : advance s = .error (.pcOverflow (s.cell .pc)) := by
  have : (s.cell .pc).toNat + Config.instrBytes > Config.maxWord := by simp only [Config.instrBytes, Config.maxWord]; omega
  rw [advance, if_pos this]

/-- Everything the advance can do when it answers a state. -/
theorem advance_cases {s t : State} (h : advance s = .ok t) :
    (s.cell .pc).toNat ≤ 65531 ∧ t = s.setCell .pc (s.cell .pc + 4#16) := by
  unfold advance at h
  split at h
  · cases h
  · rename_i hp
    simp only [Config.instrBytes, Config.maxWord] at hp
    cases h
    exact ⟨by omega, rfl⟩

/-- A fetch from an aligned `pc` never leaves memory (R89). -/
theorem fetch_ok {s : State} (h : (s.cell .pc).toNat ≤ 65532) :
    fetch s = .ok { b0 := s.byte (s.cell .pc).toNat, b1 := s.byte ((s.cell .pc).toNat + 1),
                    b2 := s.byte ((s.cell .pc).toNat + 2), b3 := s.byte ((s.cell .pc).toNat + 3) } := by
  have : inRange (s.cell .pc) 4 = true := inRange_iff.2 (by omega)
  simp [fetch, this]

end Sys2Proof.Machine
end

