-- ==== Sys2Proof/Laws/Exec.lean ====
section
/-! SUPPORT. Everything an execute phase can do when it answers a state, and everything a step can do, each said once. -/

namespace Sys2Proof.Machine

/-! ### Agreement of states -/

theorem sameBut_setCell {cells : List StoredReg} (s : State) {c : StoredReg} (v : Word) (h : c ∈ cells) :
    sameBut cells s (s.setCell c v) :=
  ⟨⟨fun _ hd => State.cell_setCell_ne s v (fun e => hd (e ▸ h)), rfl, rfl, rfl, rfl, rfl, rfl⟩, fun _ => rfl⟩

theorem sameMachine_nextSupply (s : State) : sameMachine s (nextSupply s) := by
  unfold nextSupply
  split <;> exact ⟨rfl, rfl, rfl, rfl, rfl, rfl⟩

/-! ### jump's target -/

theorem jumpTarget_small {a : Word} (h : a.toNat < 4) : jumpTarget a = 0#16 := by
  have e : a.toNat - a.toNat % 4 = 0 := by omega
  simp [jumpTarget, e]

theorem jumpTarget_large {a : Word} (h : 4 ≤ a.toNat) : (jumpTarget a).toNat + 4 = a.toNat - a.toNat % 4 := by
  have hl := a.isLt
  have e : a.toNat - a.toNat % 4 > 0 := by omega
  simp only [jumpTarget, e, if_true, BitVec.toNat_ofNat]
  omega

/-- What a taken `jump` writes is a multiple of 4 (R21). -/
theorem jumpTarget_aligned (a : Word) : (jumpTarget a).toNat % 4 = 0 := by
  by_cases h : a.toNat < 4
  · rw [jumpTarget_small h]; rfl
  · have := jumpTarget_large (a := a) (by omega)
    omega

/-! ### The execute phases -/

/-- The states an execute phase can answer: the state with an error recorded, or the instruction's own effect. -/
inductive ExecNext (s : State) : Instr → State → Prop
  | raised (i : Instr) (e : Error) (h : e.fault? = none) : ExecNext s i (s.setStatus (.faulted e))
  | halt : ExecNext s .halt (s.setHalted true)
  | noop : ExecNext s .noop s
  | add (a b : StoredReg) (v : Word) (h : alu .add (s.cell a) (s.cell b) = .ok v) :
      ExecNext s (.add (.cell a) (.cell b)) (s.setCell .ans v)
  | sub (a b : StoredReg) (v : Word) (h : alu .sub (s.cell a) (s.cell b) = .ok v) :
      ExecNext s (.sub (.cell a) (.cell b)) (s.setCell .ans v)
  | mul (a b : StoredReg) (v : Word) (h : alu .mul (s.cell a) (s.cell b) = .ok v) :
      ExecNext s (.mul (.cell a) (.cell b)) (s.setCell .ans v)
  | copy (a c : StoredReg) (hp : c ≠ .pc) (ha : c ≠ .ans) : ExecNext s (.copy (.cell a) (.cell c)) (s.setCell c (s.cell a))
  | copyOut (a : StoredReg) (t : State) (h : outWrite (s.cell a) s = .ok t) : ExecNext s (.copy (.cell a) .out) t
  | jumpTaken (a c : StoredReg) (h : s.cell c = 0#16) :
      ExecNext s (.jump (.cell a) (.cell c)) (s.setCell .pc (jumpTarget (s.cell a)))
  | jumpNotTaken (a c : StoredReg) (h : s.cell c ≠ 0#16) : ExecNext s (.jump (.cell a) (.cell c)) s
  | put (v : Word) (c : StoredReg) (hp : c ≠ .pc) (ha : c ≠ .ans) : ExecNext s (.put v (.cell c)) (s.setCell c v)
  | push (a : StoredReg) (u : State) (h0 : s.cell .sp ≠ 0#16) (h1 : s.cell .sp ≠ 1#16)
      (h : store16 (s.cell .sp) (s.cell a) s = .ok u) : ExecNext s (.push (.cell a)) (u.setCell .sp (s.cell .sp - 2#16))
  | popRaised (dst : Reg) (h : dst = .out ∨ dst = .cell .pc ∨ dst = .cell .ans) :
      ExecNext s (.pop dst) ((s.setCell .sp (s.cell .sp + 2#16)).setStatus (.faulted (.forbidden .pop .dst dst)))
  | pop (c : StoredReg) (v : Word) (hp : c ≠ .pc) (ha : c ≠ .ans)
      (h : load16 (s.cell .sp + 2#16) (s.setCell .sp (s.cell .sp + 2#16)) = .ok v) :
      ExecNext s (.pop (.cell c)) ((s.setCell .sp (s.cell .sp + 2#16)).setCell c v)
  | write (v a : StoredReg) (t : State) (h : store16 (s.cell a) (s.cell v) s = .ok t) :
      ExecNext s (.write (.cell v) (.cell a)) t
  | read (a c : StoredReg) (v : Word) (hp : c ≠ .pc) (ha : c ≠ .ans) (h : load16 (s.cell a) s = .ok v) :
      ExecNext s (.read (.cell a) (.cell c)) (s.setCell c v)

theorem srcRead_ok {op : Mnemonic} {role : Role} {r : Reg} {s : State} {v : Word} (h : srcRead op role r s = .ok v) :
    ∃ c, r = .cell c ∧ v = s.cell c := by
  cases r with
  | out => cases h
  | cell c => cases h; exact ⟨c, rfl, rfl⟩

theorem readReg_ok {r : Reg} {s : State} {v : Word} (h : readReg r s = .ok v) : ∃ c, r = .cell c ∧ v = s.cell c := by
  cases r with
  | out => cases h
  | cell c => cases h; exact ⟨c, rfl, rfl⟩

/-- What the three arithmetic instructions share (R105 to R107). -/
theorem arithmetic_next {op : Mnemonic} {f : AluOp} {x y : Reg} {s t : State} (h : arithmetic op f x y s = .next t) :
    (∃ e, e.fault? = none ∧ t = s.setStatus (.faulted e)) ∨
      ∃ a b v, x = .cell a ∧ y = .cell b ∧ alu f (s.cell a) (s.cell b) = .ok v ∧ t = s.setCell .ans v := by
  unfold arithmetic at h
  rcases orRaise_next.1 h with ⟨e, -, he, ht⟩ | ⟨p, hp, h1⟩
  · exact .inl ⟨e, he, ht⟩
  rcases orRaise_next.1 h1 with ⟨e, -, he, ht⟩ | ⟨q, hq, h2⟩
  · exact .inl ⟨e, he, ht⟩
  rcases orRaise_next.1 h2 with ⟨e, -, he, ht⟩ | ⟨v, hv, h3⟩
  · exact .inl ⟨e, he, ht⟩
  obtain ⟨a, rfl, rfl⟩ := srcRead_ok hp
  obtain ⟨b, rfl, rfl⟩ := srcRead_ok hq
  cases h3
  exact .inr ⟨a, b, v, rfl, rfl, hv, rfl⟩

theorem execCopy_next {src dst : Reg} {s t : State} (h : execCopy src dst s = .next t) : ExecNext s (.copy src dst) t := by
  unfold execCopy at h
  rcases orRaise_next.1 h with ⟨e, -, he, rfl⟩ | ⟨v, hv, h⟩
  · exact .raised _ e he
  obtain ⟨a, rfl, rfl⟩ := srcRead_ok hv
  rcases orRaise_next.1 h with ⟨e, -, he, rfl⟩ | ⟨u, hu, h⟩
  · exact .raised _ e he
  cases h
  rcases copyWrite_ok hu with ⟨c, rfl, hp, ha, rfl⟩ | ⟨rfl, ho⟩
  · exact .copy a c hp ha
  · exact .copyOut a _ ho

theorem execJump_next {addr cond : Reg} {s t : State} (h : execJump addr cond s = .next t) :
    ExecNext s (.jump addr cond) t := by
  unfold execJump at h
  rcases orRaise_next.1 h with ⟨e, -, he, rfl⟩ | ⟨v, hv, h⟩
  · exact .raised _ e he
  rcases orRaise_next.1 h with ⟨e, -, he, rfl⟩ | ⟨w, hw, h⟩
  · exact .raised _ e he
  obtain ⟨a, rfl, rfl⟩ := readReg_ok hv
  obtain ⟨c, rfl, rfl⟩ := readReg_ok hw
  by_cases hz : s.cell c = 0#16
  · simp only [isZero, hz, decide_true, if_true] at h
    cases h
    exact .jumpTaken a c hz
  · simp only [isZero, hz, decide_false] at h
    cases h
    exact .jumpNotTaken a c hz

theorem execPut_next {v : Word} {dst : Reg} {s t : State} (h : execPut v dst s = .next t) : ExecNext s (.put v dst) t := by
  unfold execPut at h
  rcases orRaise_next.1 h with ⟨e, -, he, rfl⟩ | ⟨u, hu, h⟩
  · exact .raised _ e he
  cases h
  obtain ⟨c, rfl, hp, ha, rfl⟩ := putWrite_ok.1 hu
  exact .put v c hp ha

theorem execPush_next {src : Reg} {s t : State} (h : execPush src s = .next t) : ExecNext s (.push src) t := by
  simp only [execPush] at h
  split at h
  · obtain ⟨he, rfl⟩ := raise_next.1 h
    exact .raised _ _ he
  rename_i h0
  rcases orRaise_next.1 h with ⟨e, -, he, rfl⟩ | ⟨v, hv, h⟩
  · exact .raised _ e he
  obtain ⟨a, rfl, rfl⟩ := srcRead_ok hv
  split at h
  · exact absurd (raise_next.1 h).1 (by simp [Error.fault?])
  split at h
  · exact absurd (raise_next.1 h).1 (by simp [Error.fault?])
  rename_i h1
  rcases orRaise_next.1 h with ⟨e, hs, he, -⟩ | ⟨u, hu, h⟩
  · rw [(store16_error.1 hs).2] at he
    cases he
  cases h
  exact .push a u h0 h1 hu

theorem execPop_next {dst : Reg} {s t : State} (h : execPop dst s = .next t) : ExecNext s (.pop dst) t := by
  simp only [execPop] at h
  split at h
  · obtain ⟨he, rfl⟩ := raise_next.1 h
    exact .raised _ _ he
  split at h
  · exact absurd (raise_next.1 h).1 (by simp [Error.fault?])
  rcases orRaise_next.1 h with ⟨e, hl, he, -⟩ | ⟨v, hv, h⟩
  · rw [(load16_error.1 hl).2] at he
    cases he
  rcases orRaise_next.1 h with ⟨e, hw, -, rfl⟩ | ⟨u, hu, h⟩
  · obtain ⟨rfl, hd⟩ := putWrite_error.1 hw
    exact .popRaised dst hd
  cases h
  obtain ⟨c, rfl, hp, ha, rfl⟩ := putWrite_ok.1 hu
  exact .pop c v hp ha hv

theorem execWrite_next {src addr : Reg} {s t : State} (h : execWrite src addr s = .next t) :
    ExecNext s (.write src addr) t := by
  unfold execWrite at h
  rcases orRaise_next.1 h with ⟨e, -, he, rfl⟩ | ⟨v, hv, h⟩
  · exact .raised _ e he
  rcases orRaise_next.1 h with ⟨e, -, he, rfl⟩ | ⟨w, hw, h⟩
  · exact .raised _ e he
  obtain ⟨a, rfl, rfl⟩ := srcRead_ok hv
  obtain ⟨c, rfl, rfl⟩ := srcRead_ok hw
  rcases orRaise_next.1 h with ⟨e, -, he, rfl⟩ | ⟨u, hu, h⟩
  · exact .raised _ e he
  cases h
  exact .write a c _ hu

theorem execRead_next {addr dst : Reg} {s t : State} (h : execRead addr dst s = .next t) :
    ExecNext s (.read addr dst) t := by
  unfold execRead at h
  rcases orRaise_next.1 h with ⟨e, -, he, rfl⟩ | ⟨w, hw, h1⟩
  · exact .raised _ e he
  rcases orRaise_next.1 h1 with ⟨e, -, he, rfl⟩ | ⟨c, hc, h2⟩
  · exact .raised _ e he
  rcases orRaise_next.1 h2 with ⟨e, -, he, rfl⟩ | ⟨v, hv, h3⟩
  · exact .raised _ e he
  obtain ⟨a, rfl, rfl⟩ := srcRead_ok hw
  obtain ⟨rfl, hp, ha⟩ := putDest_ok.1 hc
  cases h3
  exact .read a c v hp ha hv

/-- Every state an execute phase answers is one of `ExecNext`. -/
theorem exec_next {i : Instr} {s t : State} (h : exec i s = .next t) : ExecNext s i t := by
  cases i with
  | halt => cases h; exact .halt
  | noop => cases h; exact .noop
  | add x y =>
    rcases arithmetic_next h with ⟨e, he, rfl⟩ | ⟨a, b, v, rfl, rfl, hv, rfl⟩
    · exact .raised _ e he
    · exact .add a b v hv
  | sub x y =>
    rcases arithmetic_next h with ⟨e, he, rfl⟩ | ⟨a, b, v, rfl, rfl, hv, rfl⟩
    · exact .raised _ e he
    · exact .sub a b v hv
  | mul x y =>
    rcases arithmetic_next h with ⟨e, he, rfl⟩ | ⟨a, b, v, rfl, rfl, hv, rfl⟩
    · exact .raised _ e he
    · exact .mul a b v hv
  | copy src dst => exact execCopy_next h
  | jump addr cond => exact execJump_next h
  | put v dst => exact execPut_next h
  | push src => exact execPush_next h
  | pop dst => exact execPop_next h
  | write src addr => exact execWrite_next h
  | read addr dst => exact execRead_next h

/-! ### The execute phases where they run to their end -/

theorem exec_push_ok {a : StoredReg} {s : State} (h0 : s.cell .sp ≠ 0#16) (h1 : s.cell .sp ≠ 1#16)
    (h2 : s.cell .sp ≠ 65535#16) :
    exec (.push (.cell a)) s = .next (((s.setByte (s.cell .sp).toNat (loByte (s.cell a))).setByte
      ((s.cell .sp).toNat + 1) (hiByte (s.cell a))).setCell .sp (s.cell .sp - 2#16)) := by
  simp [exec, execPush, h0, h1, h2, store16_ok h2]

theorem exec_pop_ok {c : StoredReg} {s : State} (h1 : s.cell .sp ≠ 65534#16) (h2 : s.cell .sp ≠ 65535#16)
    (h3 : s.cell .sp + 2#16 ≠ 65535#16) (hp : c ≠ .pc) (ha : c ≠ .ans) :
    exec (.pop (.cell c)) s = .next ((s.setCell .sp (s.cell .sp + 2#16)).setCell c
      (s.byte ((s.cell .sp + 2#16).toNat + 1) ++ s.byte (s.cell .sp + 2#16).toNat)) := by
  have hw := fun v => (putWrite_ok (op := .pop) (v := v) (s := s.setCell .sp (s.cell .sp + 2#16))).2 ⟨c, rfl, hp, ha, rfl⟩
  simp only [exec, execPop, h1, h2, if_false, load16_ok h3, orRaise_ok, hw, State.byte_setCell]

theorem exec_write_ok {v a : StoredReg} {s : State} (h : s.cell a ≠ 65535#16) :
    exec (.write (.cell v) (.cell a)) s = .next ((s.setByte (s.cell a).toNat (loByte (s.cell v))).setByte
      ((s.cell a).toNat + 1) (hiByte (s.cell v))) := by
  simp [exec, execWrite, store16_ok h]

theorem exec_read_ok {a c : StoredReg} {s : State} (h : s.cell a ≠ 65535#16) (hp : c ≠ .pc) (ha : c ≠ .ans) :
    exec (.read (.cell a) (.cell c)) s =
      .next (s.setCell c (s.byte ((s.cell a).toNat + 1) ++ s.byte (s.cell a).toNat)) := by
  simp [exec, execRead, (putDest_ok (op := .read)).2 ⟨rfl, hp, ha⟩, load16_ok h]

/-! ### The step -/

theorem fetch_wordAtPc {s : State} (h : (s.cell .pc).toNat ≤ 65532) : fetch s = .ok s.wordAtPc := fetch_ok h

theorem stepWith_active {m : Maps} {s : State} (h : s.active) : stepWith m s = runInstr m s := by
  have h1 : s.status = .running := h.1
  simp [stepWith, h1, h.2]

/-- A step of an active core whose word does not decode. -/
theorem stepWith_decode_error {m : Maps} {s : State} {d : DecodeStop} (h : s.active) (hp : (s.cell .pc).toNat ≤ 65532)
    (hd : decode m s.wordAtPc = .error d) : stepWith m s = raiseDecode d s := by
  rw [stepWith_active h, runInstr, fetch_wordAtPc hp, orRaise_ok, hd]

/-- A step of an active core whose word decodes. -/
theorem stepWith_decodesTo {m : Maps} {s : State} {i : Instr} (h : s.decodesTo m i) : stepWith m s = retire i (exec i s) := by
  rw [stepWith_active h.1, runInstr, fetch_wordAtPc h.2.1, orRaise_ok, h.2.2]

theorem raiseDecode_next {d : DecodeStop} {s t : State} (h : raiseDecode d s = .next t) :
    ∃ b, d = .decodeError b ∧ t = s.setStatus (.faulted (.decodeError b)) := by
  cases d with
  | decodeError b => exact ⟨b, rfl, (raise_next (e := .decodeError b).1 h).2⟩
  | badRegister b => exact absurd (raise_next (e := .badRegister b) (s := s).1 h).1 (by simp [Error.fault?])
  | nonZeroReserved => cases h

/-- Everything that stage 4 of R87 can do when it answers a state. -/
theorem complete_next {i : Instr} {u t : State} (h : complete i u = .next t) :
    (u.status ≠ .running ∧ t = u) ∨ (u.status = .running ∧ i = .halt ∧ t = nextSupply u) ∨
      (u.status = .running ∧ i ≠ .halt ∧ (u.cell .pc).toNat ≤ 65531 ∧ t = nextSupply (u.setCell .pc (u.cell .pc + 4#16))) := by
  unfold complete at h
  split at h
  · rename_i hs
    split at h
    · rename_i hi
      have : i = .halt := by cases i <;> simp_all [Instr.mnemonic]
      cases h
      exact .inr (.inl ⟨hs, this, rfl⟩)
    · rename_i hi
      have hn : i ≠ .halt := fun e => hi (e ▸ rfl)
      rcases orRaise_next.1 h with ⟨e, ha, he, -⟩ | ⟨w, hw, h⟩
      · unfold advance at ha
        split at ha <;> cases ha
        cases he
      · obtain ⟨hp, rfl⟩ := advance_cases hw
        cases h
        exact .inr (.inr ⟨hs, hn, hp, rfl⟩)
  · rename_i hs
    cases h
    exact .inl ⟨by simp [hs], rfl⟩
  · rename_i hs
    cases h
    exact .inl ⟨by simp [hs], rfl⟩

/-- Everything a step can do when it answers a state. -/
theorem stepWith_next {m : Maps} {s t : State} (h : stepWith m s = .next t) :
    s.errorFree ∧
      ((s.halted = true ∧ t = s) ∨
       (s.active ∧ (s.cell .pc).toNat ≤ 65532 ∧ ∃ b, decode m s.wordAtPc = .error (.decodeError b) ∧
          t = s.setStatus (.faulted (.decodeError b))) ∨
       (∃ i u, s.decodesTo m i ∧ ExecNext s i u ∧ complete i u = .next t)) := by
  unfold stepWith at h
  split at h
  · rename_i hs
    refine ⟨hs, ?_⟩
    split at h
    · rename_i hh
      cases h
      exact .inl ⟨hh, rfl⟩
    · rename_i hh
      have hact : s.active := ⟨hs, by simpa using hh⟩
      unfold runInstr at h
      rcases orRaise_next.1 h with ⟨e, hf, he, -⟩ | ⟨w, hw, h⟩
      · simp only [fetch] at hf
        split at hf <;> cases hf
        cases he
      · have hp : (s.cell .pc).toNat ≤ 65532 := by
          simp only [fetch] at hw
          split at hw
          · rename_i hr
            have := inRange_iff.1 hr
            omega
          · cases hw
        rw [fetch_wordAtPc hp] at hw
        cases hw
        cases hd : decode m s.wordAtPc with
        | error d =>
          rw [hd] at h
          obtain ⟨b, rfl, rfl⟩ := raiseDecode_next h
          exact .inr (.inl ⟨hact, hp, b, rfl, rfl⟩)
        | ok i =>
          rw [hd] at h
          cases he : exec i s with
          | next u =>
            simp only [he, retire] at h
            exact .inr (.inr ⟨i, u, ⟨hact, hp, hd⟩, exec_next he, h⟩)
          | fault f => simp only [he, retire] at h; cases h
          | refused n => simp only [he, retire] at h; cases h
  · cases h
  · cases h

end Sys2Proof.Machine
end

