-- ==== Sys2Proof/Laws/PerInstr.lean ====
section
/-! SUPPORT. Families of statements about every instruction as a term, one lemma per constructor. -/

/-- Byte 0 of an instruction's encoding is its own mnemonic's opcode, under any maps (R66). -/
def Sys2Proof.Laws.OpcodeByte.Statement (i : Sys2Proof.Instr) : Prop :=
  ∀ m : Sys2Proof.Maps, (Sys2Proof.encode m i).b0 = m.opcode i.mnemonic

namespace Sys2Proof.Laws.OpcodeByte

open Sys2Proof

theorem halt : Statement .halt := fun _ => rfl
theorem noop : Statement .noop := fun _ => rfl
theorem add (x y : Reg) : Statement (.add x y) := fun _ => rfl
theorem sub (x y : Reg) : Statement (.sub x y) := fun _ => rfl
theorem mul (x y : Reg) : Statement (.mul x y) := fun _ => rfl
theorem copy (src dst : Reg) : Statement (.copy src dst) := fun _ => rfl
theorem jump (addr cond : Reg) : Statement (.jump addr cond) := fun _ => rfl
theorem put (value : Word) (dst : Reg) : Statement (.put value dst) := fun _ => rfl
theorem push (src : Reg) : Statement (.push src) := fun _ => rfl
theorem pop (dst : Reg) : Statement (.pop dst) := fun _ => rfl
theorem write (src addr : Reg) : Statement (.write src addr) := fun _ => rfl
theorem read (addr dst : Reg) : Statement (.read addr dst) := fun _ => rfl

end Sys2Proof.Laws.OpcodeByte
end

