-- ==== Sys2Proof/Laws/Text.lean ====
section
/-! SUPPORT. Cutting and joining text, and what the printed form of an instruction is made of. -/

namespace Sys2Proof.Machine

/-! ### Cutting and joining -/

theorem splitWhere_none {p : Char → Bool} {t : Text} (h : ∀ c ∈ t, p c = false) : splitWhere p t = [t] := by
  induction t with
  | nil => rfl
  | cons c rest ih =>
    simp only [splitWhere, h c List.mem_cons_self, ih fun d hd => h d (List.mem_cons_of_mem _ hd)]
    rfl

theorem splitWhere_sep {p : Char → Bool} {t : Text} (h : ∀ c ∈ t, p c = false) {c : Char} (hc : p c = true) (rest : Text) :
    splitWhere p (t ++ c :: rest) = t :: splitWhere p rest := by
  induction t with
  | nil => simp [splitWhere, hc]
  | cons d u ih =>
    simp only [List.cons_append, splitWhere, h d List.mem_cons_self, ih fun e he => h e (List.mem_cons_of_mem _ he)]
    rfl

/-- A character that a printed token holds: a lower-case letter or a digit, so neither whitespace nor `.`, `#` or `;`. -/
def isPlain (c : Char) : Bool := isDigitChar c || (decide (97 ≤ c.toNat) && decide (c.toNat ≤ 122))

theorem isPlain_range {c : Char} (h : isPlain c = true) : 48 ≤ c.toNat ∧ c.toNat ≤ 122 ∧ c.toNat ≠ 59 := by
  simp only [isPlain, isDigitChar, Bool.or_eq_true, Bool.and_eq_true, decide_eq_true_eq] at h
  omega

theorem isWhitespace_of_isPlain {c : Char} (h : isPlain c = true) : isWhitespace c = false := by
  have := isPlain_range h
  simp [isWhitespace]
  omega

/-- A token of the printed form (R76). -/
def PlainToken (t : Token) : Prop := t ≠ [] ∧ ∀ c ∈ t, isPlain c = true

theorem tokens_joinTokens {ts : List Token} (h : ∀ t ∈ ts, PlainToken t) : tokens (joinTokens ts) = ts := by
  unfold tokens
  induction ts with
  | nil => rfl
  | cons t rest ih =>
    have ht := h t List.mem_cons_self
    have hw : ∀ c ∈ t, isWhitespace c = false := fun c hc => isWhitespace_of_isPlain (ht.2 c hc)
    have hne : (!t.isEmpty) = true := by simp [ht.1]
    cases rest with
    | nil => simp [joinTokens, splitWhere_none hw, ht.1]
    | cons u us =>
      rw [joinTokens, splitWhere_sep hw (by decide), List.filter_cons_of_pos (by exact hne),
        ih fun v hv => h v (List.mem_cons_of_mem _ hv)]

/-! ### The tokens of a printed instruction -/

theorem plainToken_mnemonicName (k : Mnemonic) : PlainToken (mnemonicName k) := by
  cases k <;> exact ⟨List.cons_ne_nil _ _, List.all_eq_true.1 (by rfl)⟩

theorem plainToken_regName (r : Reg) : PlainToken (regName r) := by
  rcases r with c | _
  · cases c <;> exact ⟨List.cons_ne_nil _ _, List.all_eq_true.1 (by rfl)⟩
  · exact ⟨List.cons_ne_nil _ _, List.all_eq_true.1 (by rfl)⟩

theorem isDigitChar_of_mem_decimal {n : Nat} {c : Char} (h : c ∈ decimal n) : isDigitChar c = true := by
  have hd := Nat.isDigit_of_mem_toDigits (b := 10) (by decide) (by decide) h
  simp only [Char.isDigit, Bool.and_eq_true, decide_eq_true_eq, ge_iff_le, UInt32.le_iff_toNat_le] at hd
  simp only [isDigitChar, Bool.and_eq_true, decide_eq_true_eq]
  exact hd

theorem plainToken_decimal (n : Nat) : PlainToken (decimal n) :=
  ⟨Nat.toDigits_ne_nil, fun c hc => by simp [isPlain, isDigitChar_of_mem_decimal hc]⟩

/-- `print` writes plain tokens only. -/
theorem plainToken_print (i : Instr) : ∀ t ∈ mnemonicName i.mnemonic :: operandTokens i, PlainToken t := by
  intro t ht
  rcases List.mem_cons.1 ht with rfl | ht
  · exact plainToken_mnemonicName _
  cases i <;> simp only [operandTokens, List.mem_cons, List.not_mem_nil, or_false] at ht
  all_goals first
    | contradiction
    | (obtain rfl | rfl := ht <;> first | exact plainToken_regName _ | exact plainToken_decimal _)

/-- The tokens of a printed instruction are its mnemonic's and its operands' (R68, R76). -/
theorem tokens_print (i : Instr) : tokens (print i) = mnemonicName i.mnemonic :: operandTokens i :=
  tokens_joinTokens (plainToken_print i)

/-! ### What the tokens name -/

theorem mnemonicOfToken_mnemonicName (k : Mnemonic) : mnemonicOfToken (mnemonicName k) = some k := by
  cases k <;> decide

theorem regOfToken_regName (r : Reg) : regOfToken (regName r) = some r := by
  rcases r with c | _
  · cases c <;> decide
  · decide

/-- The decimal of a value reads as that value (R72, R76). -/
theorem decimalValue_decimal (n : Nat) : decimalValue (decimal n) = n := by
  have h := Nat.ofDigitChars_ten_toDigits (n := n)
  rw [Nat.ofDigitChars_eq_foldl] at h
  exact h

theorem literalOfToken_decimal (v : Word) : literalOfToken (decimal v.toNat) = some v := by
  have hl := v.isLt
  have hne : (decimal v.toNat).isEmpty = false := by simpa using (plainToken_decimal v.toNat).1
  have hall : (decimal v.toNat).all isDigitChar = true := List.all_eq_true.2 fun c hc => isDigitChar_of_mem_decimal hc
  have hle : v.toNat ≤ Config.maxWord := by simp only [Config.maxWord]; omega
  simp [literalOfToken, hne, hall, decimalValue_decimal, hle]

/-! ### Labels -/

theorem isLabel_of_plain {t : Token} (h : PlainToken t) : isLabel t = false := by
  cases t with
  | nil => rfl
  | cons c u =>
    have hr := isPlain_range (h.2 c List.mem_cons_self)
    simp only [isLabel, beq_eq_false_iff_ne, ne_eq]
    rintro rfl
    exact absurd hr (by decide)

/-- A line without label tokens passes pass 2's replacement as it is (R80). -/
theorem replaceLabels_plain (labels : Labels) {ts : List Token} (h : ∀ t ∈ ts, PlainToken t) :
    replaceLabels labels ts = .ok ts := by
  induction ts with
  | nil => rfl
  | cons t rest ih =>
    simp [replaceLabels, isLabel_of_plain (h t List.mem_cons_self), ih fun u hu => h u (List.mem_cons_of_mem _ hu)]

end Sys2Proof.Machine
end

