-- ==== Sys2Proof/Tests/Slice0.lean ====
section
/-! SUPPORT. The model's own tests. Expected results come from spec/95_test_vectors.md, by the vector's name, or from the rule
named. After them stand the witnesses: for every hypothesis of an obligation, a concrete state and operands that meet it. -/

namespace Sys2Proof.Tests

open Sys2Proof Sys2Proof.Machine

/-! ### Helpers -/

/-- The instruction a word decodes to under the default maps. -/
def decoded (w : InstrWord) : Option Instr :=
  match decode defaultMaps w with
  | .ok i => some i
  | .error _ => none

/-- Why a word does not decode under the default maps. -/
def decodeStop (w : InstrWord) : Option DecodeStop :=
  match decode defaultMaps w with
  | .ok _ => none
  | .error d => some d

/-- The powered core at `pc` with some cells set: the start state of the vectors. -/
def start (pc : Word) (cells : List (StoredReg × Word)) : State :=
  cells.foldl (fun s c => s.setCell c.1 c.2) (State.reset.setCell .pc pc)

/-- One step of the word `w` placed at `pc`. -/
def runWord (s : State) (w : InstrWord) : Result := step (placeWord w s)

/-- What a step left in a cell. -/
def cellAfter (c : StoredReg) (o : Result) : Option Word :=
  match o with
  | .next t => some (t.cell c)
  | .fault _ => none
  | .refused _ => none

/-- What a step left at an address. -/
def byteAfter (a : Nat) (o : Result) : Option Byte :=
  match o with
  | .next t => some (t.byte a)
  | .fault _ => none
  | .refused _ => none

/-- The status and the `pc` a step left. -/
def statusAfter (o : Result) : Option (Status × Word) :=
  match o with
  | .next t => some (t.status, t.cell .pc)
  | .fault _ => none
  | .refused _ => none

/-- The console and the output history a step left. -/
def outputAfter (o : Result) : Option (List Word × List DeviceEvent) :=
  match o with
  | .next t => some (t.console, t.history)
  | .fault _ => none
  | .refused _ => none

/-- The super-state a step left. -/
def haltedAfter (o : Result) : Option Bool :=
  match o with
  | .next t => some t.halted
  | .fault _ => none
  | .refused _ => none

/-- The fault a step ends with. -/
def faultOf (o : Result) : Option Fault :=
  match o with
  | .next _ => none
  | .fault f => some f
  | .refused _ => none

/-- The refusal a step ends with. -/
def refusalOf (o : Result) : Option Refusal :=
  match o with
  | .next _ => none
  | .fault _ => none
  | .refused n => some n

/-- The outcome of a step that recorded an error at `pc`. -/
def failed (e : Error) (pc : Word) : Option (Status × Word) := some (.faulted e, pc)

/-! ### Well-formedness: an ill-formed term for each check -/

/-- Maps that break R58 constraint 1: `halt` at 1, `noop` at 0. -/
def mapsHaltAtOne : Maps :=
  { opcode := fun k => if k = .halt then 1 else if k = .noop then 0 else defaultOpcode k, regId := defaultRegId }

/-- Maps that break R58 constraint 2: `add` and `sub` share an opcode. -/
def mapsSharedOpcode : Maps :=
  { opcode := fun k => if k = .sub then 2 else defaultOpcode k, regId := defaultRegId }

/-- Maps that break R59: `out` has the id of `gp0`. -/
def mapsSharedId : Maps := { opcode := defaultOpcode, regId := fun r => if r = .out then 0 else defaultRegId r }

theorem test_halt_opcode_must_be_zero :
    mapsHaltAtOne.haltIsZero = false ∧ mapsHaltAtOne.opcodesDistinct = true ∧ mapsHaltAtOne.admissible = false := by decide

theorem test_opcodes_must_differ :
    mapsSharedOpcode.opcodesDistinct = false ∧ mapsSharedOpcode.haltIsZero = true ∧ mapsSharedOpcode.admissible = false := by
  decide

theorem test_register_ids_must_differ :
    mapsSharedId.regIdsDistinct = false ∧ mapsSharedId.opcodesDistinct = true ∧ mapsSharedId.admissible = false := by decide

/-- R57: every register name is well-formed in every register position. -/
theorem test_every_operand_is_well_formed :
    (Instr.add .out .out).wellFormed = true ∧ (Instr.put 65535 (.cell .pc)).wellFormed = true := by decide

/-- A-9 and A-10, by length: 65536 bytes are refused, 65535 are not. -/
theorem test_program_size_limit :
    fitsMemory (List.replicate 65536 0) = false ∧ fitsMemory (List.replicate 65535 0) = true := by
  simp only [fitsMemory, Config.memorySize, List.length_replicate]; decide

/-! ### Decode and encode: L2.1 and L2.2, at least one word for every constructor -/

/-- DC-1, DC-2, DC-3. -/
theorem test_decode_format_n :
    decoded ⟨0x00, 0x00, 0x00, 0x00⟩ = some .halt ∧ decoded ⟨0x00, 0xFF, 0x12, 0x34⟩ = some .halt ∧
    decoded ⟨0x01, 0x00, 0x00, 0x00⟩ = some .noop := by decide

/-- E-3 to E-7, DC-17. -/
theorem test_decode_format_rr :
    decoded ⟨0x02, 0x01, 0x00, 0x00⟩ = some (.add (.cell .gp1) (.cell .gp0)) ∧
    decoded ⟨0x03, 0x00, 0x01, 0x00⟩ = some (.sub (.cell .gp0) (.cell .gp1)) ∧
    decoded ⟨0x04, 0x08, 0x0C, 0x00⟩ = some (.mul (.cell .ans) (.cell .sp)) ∧
    decoded ⟨0x05, 0x08, 0x0A, 0x00⟩ = some (.copy (.cell .ans) .out) ∧
    decoded ⟨0x06, 0x07, 0x05, 0x00⟩ = some (.jump (.cell .gp7) (.cell .gp5)) ∧
    decoded ⟨0x06, 0x0A, 0x0A, 0x00⟩ = some (.jump .out .out) := by decide

/-- E-13, E-14. -/
theorem test_decode_memory_access :
    decoded ⟨0x0A, 0x00, 0x01, 0x00⟩ = some (.write (.cell .gp0) (.cell .gp1)) ∧
    decoded ⟨0x0B, 0x01, 0x02, 0x00⟩ = some (.read (.cell .gp1) (.cell .gp2)) := by decide

/-- E-10, DC-11. -/
theorem test_decode_put :
    decoded ⟨0x07, 0x34, 0x12, 0x09⟩ = some (.put 4660 (.cell .dvc)) ∧
    decoded ⟨0x07, 0xFF, 0xFF, 0x0A⟩ = some (.put 65535 .out) := by decide

/-- DC-14, E-11, DC-16, E-12. -/
theorem test_decode_stack :
    decoded ⟨0x08, 0x0C, 0x00, 0x00⟩ = some (.push (.cell .sp)) ∧
    decoded ⟨0x08, 0x0B, 0x00, 0x00⟩ = some (.push (.cell .pc)) ∧
    decoded ⟨0x09, 0x0A, 0x00, 0x00⟩ = some (.pop .out) ∧
    decoded ⟨0x09, 0x03, 0x00, 0x00⟩ = some (.pop (.cell .gp3)) := by decide

/-- DC-4, DC-8, DC-15. -/
theorem test_decode_reserved :
    decodeStop ⟨0x01, 0x00, 0x00, 0x01⟩ = some .nonZeroReserved ∧
    decodeStop ⟨0x02, 0x01, 0x00, 0x05⟩ = some .nonZeroReserved ∧
    decodeStop ⟨0x08, 0x00, 0x01, 0x00⟩ = some .nonZeroReserved := by decide

/-- DC-6, DC-7, DC-12, DC-13, DC-18. -/
theorem test_decode_unknown_register :
    decodeStop ⟨0x02, 0x0D, 0x00, 0x00⟩ = some (.badRegister 0x0D) ∧
    decodeStop ⟨0x02, 0x0D, 0x00, 0x05⟩ = some (.badRegister 0x0D) ∧
    decodeStop ⟨0x07, 0x00, 0x00, 0x0D⟩ = some (.badRegister 0x0D) ∧
    decodeStop ⟨0x07, 0x34, 0x12, 0xFF⟩ = some (.badRegister 0xFF) ∧
    decodeStop ⟨0x0B, 0x0D, 0x0E, 0x00⟩ = some (.badRegister 0x0D) := by decide

/-- DC-9, DC-10. -/
theorem test_decode_unknown_opcode :
    decodeStop ⟨0x0C, 0x00, 0x00, 0x00⟩ = some (.decodeError 0x0C) ∧
    decodeStop ⟨0xFF, 0xFF, 0xFF, 0xFF⟩ = some (.decodeError 0xFF) := by decide

/-- E-1 to E-7. -/
theorem test_encode_first_half :
    encode defaultMaps .halt = ⟨0x00, 0x00, 0x00, 0x00⟩ ∧
    encode defaultMaps .noop = ⟨0x01, 0x00, 0x00, 0x00⟩ ∧
    encode defaultMaps (.add (.cell .gp1) (.cell .gp0)) = ⟨0x02, 0x01, 0x00, 0x00⟩ ∧
    encode defaultMaps (.sub (.cell .gp0) (.cell .gp1)) = ⟨0x03, 0x00, 0x01, 0x00⟩ ∧
    encode defaultMaps (.mul (.cell .ans) (.cell .sp)) = ⟨0x04, 0x08, 0x0C, 0x00⟩ ∧
    encode defaultMaps (.copy (.cell .ans) .out) = ⟨0x05, 0x08, 0x0A, 0x00⟩ ∧
    encode defaultMaps (.jump (.cell .gp7) (.cell .gp5)) = ⟨0x06, 0x07, 0x05, 0x00⟩ := by decide

/-- E-8 to E-14. -/
theorem test_encode_second_half :
    encode defaultMaps (.put 0 (.cell .gp0)) = ⟨0x07, 0x00, 0x00, 0x00⟩ ∧
    encode defaultMaps (.put 65535 (.cell .sp)) = ⟨0x07, 0xFF, 0xFF, 0x0C⟩ ∧
    encode defaultMaps (.put 4660 (.cell .dvc)) = ⟨0x07, 0x34, 0x12, 0x09⟩ ∧
    encode defaultMaps (.push (.cell .pc)) = ⟨0x08, 0x0B, 0x00, 0x00⟩ ∧
    encode defaultMaps (.pop (.cell .gp3)) = ⟨0x09, 0x03, 0x00, 0x00⟩ ∧
    encode defaultMaps (.write (.cell .gp0) (.cell .gp1)) = ⟨0x0A, 0x00, 0x01, 0x00⟩ ∧
    encode defaultMaps (.read (.cell .gp1) (.cell .gp2)) = ⟨0x0B, 0x01, 0x02, 0x00⟩ := by decide

/-- E-10's word, its bits numbered as spec/opcode_table.json numbers them: byte 0 is the low byte. -/
theorem test_table_word : decodeTableWord 32 0x09123407 = some (.put 0x1234 (.cell .dvc)) := by decide

/-- The same word runs as the first instruction after reset. -/
theorem test_fetch_word_runs : cellAfter .dvc (step (State.reset.withFetchWord 32 0x09123407)) = some 0x1234 := by decide

/-! ### One step: at most two tests for each instruction -/

/-- S-1. -/
theorem test_halt_stays_at_its_word :
    haltedAfter (runWord (start 36 []) ⟨0x00, 0x00, 0x00, 0x00⟩) = some true ∧
    statusAfter (runWord (start 36 []) ⟨0x00, 0x00, 0x00, 0x00⟩) = some (.running, 36) := by decide

/-- S-2: a halted core fetches nothing, here not even the unknown opcode at `pc`. -/
theorem test_halted_core_does_nothing :
    statusAfter (runWord ((start 36 []).setHalted true) ⟨0x0C, 0x00, 0x00, 0x00⟩) = some (.running, 36) := by decide

/-- S-3, S-4. -/
theorem test_noop_advances :
    statusAfter (runWord (start 0 []) ⟨0x01, 0x00, 0x00, 0x00⟩) = some (.running, 4) ∧
    faultOf (runWord (start 65532 []) ⟨0x01, 0x00, 0x00, 0x00⟩) = some (.pcOverflow 65532) := by decide

/-- S-5, and DC-4 at a step. -/
theorem test_step_of_undecodable_words :
    statusAfter (runWord (start 40 []) ⟨0x0C, 0x00, 0x00, 0x00⟩) = failed (.decodeError 0x0C) 40 ∧
    refusalOf (runWord (start 40 []) ⟨0x01, 0x00, 0x00, 0x01⟩) = some .nonZeroReserved ∧
    faultOf (runWord (start 40 []) ⟨0x02, 0x0D, 0x00, 0x00⟩) = some (.badRegister 0x0D) := by decide

/-- AR-1, AR-2, AR-5. -/
theorem test_add_at_the_limit :
    cellAfter .ans (runWord (start 40 [(.gp0, 65535), (.gp1, 0)]) ⟨0x02, 0x00, 0x01, 0x00⟩) = some 65535 ∧
    statusAfter (runWord (start 40 [(.gp0, 65535), (.gp1, 1)]) ⟨0x02, 0x00, 0x01, 0x00⟩) = failed (.overflow 65535 1) 40 ∧
    cellAfter .ans (runWord (start 8 [(.gp0, 4)]) ⟨0x02, 0x0B, 0x00, 0x00⟩) = some 12 := by decide

/-- AR-8, AR-9. -/
theorem test_add_forbids_out :
    statusAfter (runWord (start 40 []) ⟨0x02, 0x00, 0x0A, 0x00⟩) = failed (.forbidden .add .y .out) 40 ∧
    statusAfter (runWord (start 40 []) ⟨0x02, 0x0A, 0x0A, 0x00⟩) = failed (.forbidden .add .x .out) 40 := by decide

/-- AR-13, AR-12: the first operand is the minuend. -/
theorem test_sub_operand_order :
    cellAfter .ans (runWord (start 40 [(.gp0, 3), (.gp1, 1)]) ⟨0x03, 0x00, 0x01, 0x00⟩) = some 2 ∧
    statusAfter (runWord (start 40 [(.gp0, 5), (.gp1, 7)]) ⟨0x03, 0x00, 0x01, 0x00⟩) = failed (.underflow 5 7) 40 := by decide

/-- AR-16, AR-17. -/
theorem test_mul_at_the_limit :
    cellAfter .ans (runWord (start 40 [(.gp0, 255), (.gp1, 257)]) ⟨0x04, 0x00, 0x01, 0x00⟩) = some 65535 ∧
    statusAfter (runWord (start 40 [(.gp0, 256), (.gp1, 256)]) ⟨0x04, 0x00, 0x01, 0x00⟩) = failed (.overflow 256 256) 40 := by
  decide

/-- CP-1, CP-3, CP-5, CP-13. -/
theorem test_copy_registers :
    cellAfter .gp1 (runWord (start 40 [(.gp0, 9)]) ⟨0x05, 0x00, 0x01, 0x00⟩) = some 9 ∧
    statusAfter (runWord (start 40 []) ⟨0x05, 0x00, 0x0B, 0x00⟩) = failed (.forbidden .copy .dst (.cell .pc)) 40 ∧
    statusAfter (runWord (start 40 []) ⟨0x05, 0x0A, 0x0B, 0x00⟩) = failed (.forbidden .copy .src .out) 40 ∧
    cellAfter .gp0 (runWord (start 40 []) ⟨0x05, 0x0B, 0x00, 0x00⟩) = some 40 := by decide

/-- CP-6, CP-7, CP-8, CP-9. -/
theorem test_copy_to_the_sinks :
    outputAfter (runWord (start 40 [(.gp0, 7), (.dvc, 0)]) ⟨0x05, 0x00, 0x0A, 0x00⟩) = some ([], [⟨.slot0, 7⟩]) ∧
    outputAfter (runWord (start 40 [(.gp0, 7), (.dvc, 1)]) ⟨0x05, 0x00, 0x0A, 0x00⟩) = some ([], [⟨.slot1, 7⟩]) ∧
    faultOf (runWord (supply ⟨true, false⟩ (start 40 [(.gp0, 7), (.dvc, 1)])) ⟨0x05, 0x00, 0x0A, 0x00⟩) = some (.noDevice .slot1) ∧
    outputAfter (runWord (supply ⟨false, false⟩ (start 40 [(.gp0, 7), (.dvc, 65535)])) ⟨0x05, 0x00, 0x0A, 0x00⟩) = some ([7], []) := by
  decide

/-- J-2, J-3, J-6, J-7, J-9. -/
theorem test_jump_targets :
    cellAfter .pc (runWord (start 100 [(.gp0, 3)]) ⟨0x06, 0x00, 0x05, 0x00⟩) = some 4 ∧
    cellAfter .pc (runWord (start 100 [(.gp0, 4)]) ⟨0x06, 0x00, 0x05, 0x00⟩) = some 4 ∧
    cellAfter .pc (runWord (start 100 [(.gp0, 23)]) ⟨0x06, 0x00, 0x05, 0x00⟩) = some 20 ∧
    cellAfter .pc (runWord (start 100 [(.gp0, 65535)]) ⟨0x06, 0x00, 0x05, 0x00⟩) = some 65532 ∧
    cellAfter .pc (runWord (start 100 [(.gp0, 8), (.gp5, 1)]) ⟨0x06, 0x00, 0x05, 0x00⟩) = some 104 := by decide

/-- J-12, J-13, J-16. -/
theorem test_jump_at_the_top :
    faultOf (runWord (start 65532 [(.gp0, 8), (.gp5, 1)]) ⟨0x06, 0x00, 0x05, 0x00⟩) = some (.pcOverflow 65532) ∧
    cellAfter .pc (runWord (start 65532 [(.gp0, 8)]) ⟨0x06, 0x00, 0x05, 0x00⟩) = some 8 ∧
    statusAfter (runWord (start 100 []) ⟨0x06, 0x0A, 0x00, 0x00⟩) = failed (.pseudoRegister .out) 100 := by decide

/-- PU-1, PU-3. -/
theorem test_put_values :
    cellAfter .gp0 (runWord (start 40 []) ⟨0x07, 0x02, 0x01, 0x00⟩) = some 258 ∧
    cellAfter .dvc (runWord (start 40 []) ⟨0x07, 0xFF, 0xFF, 0x09⟩) = some 65535 := by decide

/-- PU-4, PU-5, PU-6. -/
theorem test_put_forbidden :
    statusAfter (runWord (start 40 []) ⟨0x07, 0x05, 0x00, 0x0B⟩) = failed (.forbidden .put .dst (.cell .pc)) 40 ∧
    statusAfter (runWord (start 40 []) ⟨0x07, 0x05, 0x00, 0x08⟩) = failed (.forbidden .put .dst (.cell .ans)) 40 ∧
    statusAfter (runWord (start 40 []) ⟨0x07, 0x05, 0x00, 0x0A⟩) = failed (.forbidden .put .dst .out) 40 := by decide

/-- ST-7: the pushed `sp` is the old one. -/
theorem test_push_sp :
    byteAfter 65534 (runWord (start 40 [(.sp, 65534)]) ⟨0x08, 0x0C, 0x00, 0x00⟩) = some 0xFE ∧
    byteAfter 65535 (runWord (start 40 [(.sp, 65534)]) ⟨0x08, 0x0C, 0x00, 0x00⟩) = some 0xFF ∧
    cellAfter .sp (runWord (start 40 [(.sp, 65534)]) ⟨0x08, 0x0C, 0x00, 0x00⟩) = some 65532 := by decide

/-- ST-2, ST-3, ST-4, ST-5. -/
theorem test_push_checks :
    statusAfter (runWord (start 40 [(.sp, 0)]) ⟨0x08, 0x0A, 0x00, 0x00⟩) = failed .stackOverflow 40 ∧
    statusAfter (runWord (start 40 []) ⟨0x08, 0x0A, 0x00, 0x00⟩) = failed (.forbidden .push .src .out) 40 ∧
    faultOf (runWord (start 40 [(.sp, 65535)]) ⟨0x08, 0x00, 0x00, 0x00⟩) = some (.memOutOfRange 65535) ∧
    faultOf (runWord (start 40 [(.sp, 1)]) ⟨0x08, 0x00, 0x00, 0x00⟩) = some (.spOutOfRange 1) := by decide

/-- The stack of ST-12 to ST-16: "M" of L2.10. -/
def stackM : State := ((start 40 [(.sp, 65532)]).setByte 65534 0x34).setByte 65535 0x12

/-- ST-12, ST-13, ST-16: a pop into `pc` fails with `sp` raised. -/
theorem test_pop_with_and_without_destination :
    cellAfter .gp0 (runWord stackM ⟨0x09, 0x00, 0x00, 0x00⟩) = some 4660 ∧
    statusAfter (runWord stackM ⟨0x09, 0x0B, 0x00, 0x00⟩) = failed (.forbidden .pop .dst (.cell .pc)) 40 ∧
    cellAfter .sp (runWord stackM ⟨0x09, 0x0B, 0x00, 0x00⟩) = some 65534 ∧
    cellAfter .sp (runWord stackM ⟨0x09, 0x0C, 0x00, 0x00⟩) = some 4660 := by decide

/-- ST-9, ST-10, ST-11. -/
theorem test_pop_checks :
    statusAfter (runWord (start 40 [(.sp, 65534)]) ⟨0x09, 0x00, 0x00, 0x00⟩) = failed .stackUnderflow 40 ∧
    faultOf (runWord (start 40 [(.sp, 65535)]) ⟨0x09, 0x00, 0x00, 0x00⟩) = some (.spOutOfRange 65535) ∧
    faultOf (runWord (start 40 [(.sp, 65533)]) ⟨0x09, 0x00, 0x00, 0x00⟩) = some (.memOutOfRange 65535) := by decide

/-- M-3, M-4. -/
theorem test_write_at_the_top :
    byteAfter 65534 (runWord (start 40 [(.gp0, 0xBEEF), (.gp1, 65534)]) ⟨0x0A, 0x00, 0x01, 0x00⟩) = some 0xEF ∧
    byteAfter 65535 (runWord (start 40 [(.gp0, 0xBEEF), (.gp1, 65534)]) ⟨0x0A, 0x00, 0x01, 0x00⟩) = some 0xBE ∧
    faultOf (runWord (start 40 [(.gp1, 65535)]) ⟨0x0A, 0x00, 0x01, 0x00⟩) = some (.memOutOfRange 65535) := by decide

/-- M-5, M-6. -/
theorem test_write_forbids_out :
    statusAfter (runWord (start 40 []) ⟨0x0A, 0x0A, 0x01, 0x00⟩) = failed (.forbidden .write .src .out) 40 ∧
    statusAfter (runWord (start 40 []) ⟨0x0A, 0x00, 0x0A, 0x00⟩) = failed (.forbidden .write .addr .out) 40 := by decide

/-- M-7, M-8. -/
theorem test_read_little_endian :
    cellAfter .gp2 (runWord (((start 40 [(.gp1, 100)]).setByte 100 2).setByte 101 1) ⟨0x0B, 0x01, 0x02, 0x00⟩) = some 258 ∧
    cellAfter .gp2 (runWord (start 40 [(.gp1, 500), (.gp2, 9)]) ⟨0x0B, 0x01, 0x02, 0x00⟩) = some 0 := by decide

/-- M-10, M-12, M-13. -/
theorem test_read_checks :
    faultOf (runWord (start 40 [(.gp1, 65535)]) ⟨0x0B, 0x01, 0x02, 0x00⟩) = some (.memOutOfRange 65535) ∧
    statusAfter (runWord (start 40 []) ⟨0x0B, 0x01, 0x0A, 0x00⟩) = failed (.forbidden .read .dst .out) 40 ∧
    statusAfter (runWord (start 40 []) ⟨0x0B, 0x01, 0x0B, 0x00⟩) = failed (.forbidden .read .dst (.cell .pc)) 40 := by decide

/-- P6, step 3, as the host sees it (R92). -/
theorem test_host_sees_the_error :
    (hostStep defaultMaps ⟨true, true⟩ (placeWord ⟨0x02, 0x00, 0x01, 0x00⟩ (start 8 [(.gp0, 65535), (.gp1, 1)]))).1
      = .error (.overflow 65535 1) := by decide

/-- The host core of Machine/Core.lean runs this step: reset memory is zero, so its first step halts (R61). -/
theorem test_core_steps : haltedAfter (Sys2Proof.core.step Sys2Proof.core.reset) = some true := by decide

/-! ### Text and assembler: L2.3 and L2.4 -/

/-- The instruction of a line, or nothing. -/
def parsed (line : String) : Option Instr :=
  match parse line.toList with
  | .ok i => some i
  | .error _ => none

/-- The error of a line, or nothing. -/
def parseStop (line : String) : Option CompileError :=
  match parse line.toList with
  | .ok _ => none
  | .error e => some e

/-- The bytes of a source text under the default maps, or nothing. -/
def assembled (source : String) : Option (List Byte) :=
  match assemble source.toList with
  | .ok p => some (encodeProgram defaultMaps p.instrs)
  | .error _ => none

/-- The error of a source text, or nothing. -/
def assembleStop (source : String) : Option CompileError :=
  match assemble source.toList with
  | .ok _ => none
  | .error e => some e

/-- T-1, T-2, T-7, T-11, T-13, T-14. -/
theorem test_parse_accepts :
    parsed "add gp0 gp1" = some (.add (.cell .gp0) (.cell .gp1)) ∧
    parsed "  add\tgp0   gp1  " = some (.add (.cell .gp0) (.cell .gp1)) ∧
    parsed "put 65535 gp0" = some (.put 65535 (.cell .gp0)) ∧
    parsed "put 007 gp0" = some (.put 7 (.cell .gp0)) ∧
    parsed "halt extra" = some .halt ∧
    parsed "pop gp0 gp1" = some (.pop (.cell .gp0)) := by decide

/-- T-3, T-4, T-6, T-8, T-9, T-10. -/
theorem test_parse_refuses :
    parseStop "ADD gp0 gp1" = some (.parseError ['A', 'D', 'D']) ∧
    parseStop "add gp0" = some (.parseError []) ∧
    parseStop "add gp0 gp8" = some (.parseError ['g', 'p', '8']) ∧
    parseStop "put 65536 gp0" = some (.parseError ['6', '5', '5', '3', '6']) ∧
    parseStop "put -1 gp0" = some (.parseError ['-', '1']) ∧
    parseStop "put 0x10 gp0" = some (.parseError ['0', 'x', '1', '0']) := by decide

/-- The canonical forms of L2.3: T-11 and T-2. -/
theorem test_print :
    print (.put 7 (.cell .gp0)) = "put 7 gp0".toList ∧
    print (.add (.cell .gp0) (.cell .gp1)) = "add gp0 gp1".toList := by decide

/-- A-1, A-3, A-4. -/
theorem test_assemble_labels :
    assembled "put .end gp0\nhalt .end" = some [0x07, 0x04, 0x00, 0x00, 0x00, 0x00, 0x00, 0x00] ∧
    assembled "noop .a\nnoop .a\nput .a gp0" =
      some [0x01, 0x00, 0x00, 0x00, 0x01, 0x00, 0x00, 0x00, 0x07, 0x00, 0x00, 0x00] ∧
    assembled "# c\n  ; d\n\nhalt" = some [0x00, 0x00, 0x00, 0x00] := by decide

/-- A-5, A-6, A-7, A-8. -/
theorem test_assemble_errors :
    assembleStop "put .nowhere gp0" = some (.undefinedLabel ".nowhere".toList) ∧
    assembleStop "jump .a gp0 .a" = some (.parseError ['0']) ∧
    assembleStop ".x" = some (.parseError ['0']) ∧
    assembleStop "halt\nbogus gp0\n.never" = some (.parseError "bogus".toList) := by decide

/-! ### Witnesses: what the hypotheses of the obligations ask can be met, clause by clause, at the ends of each range -/

/-- `s` steps to a next state. -/
def steps (s : State) : Bool := (statusAfter (step s)).isSome

/-- `i` in `s` answers a next state. -/
def completes (i : Instr) (s : State) : Bool := (statusAfter (exec i s)).isSome

/-- `i` in `s` answers a next state that records no error. -/
def succeeds (i : Instr) (s : State) : Bool := (statusAfter (exec i s)).map Prod.fst == some .running

/-- The word of `noop`, placed at `pc`, with nothing recorded and the core powered. -/
def noopAt (pc : Word) : State := placeWord ⟨0x01, 0x00, 0x00, 0x00⟩ (start pc [])

/-- `jump gp0 gp5` placed at `pc`. -/
def jumpAt (pc : Word) (cells : List (StoredReg × Word)) : State := placeWord ⟨0x06, 0x00, 0x05, 0x00⟩ (start pc cells)

/-- A start state is active: CodecRoundTrip and every statement about a step ask no more than admissible maps and this. -/
theorem test_witness_active : defaultMaps.admissible = true ∧ (start 65532 []).active := ⟨by decide, ⟨rfl, rfl⟩⟩

/-- CodecRoundTrip: a decoding word that is its encoding, and two that share the instruction `halt` and are not equal. -/
theorem test_witness_codec_round_trip :
    decode defaultMaps ⟨0x0B, 0x01, 0x02, 0x00⟩ = .ok (.read (.cell .gp1) (.cell .gp2)) ∧
    decode defaultMaps ⟨0x00, 0xFF, 0x12, 0x34⟩ = .ok .halt ∧ decode defaultMaps ⟨0x00, 0x00, 0x00, 0x00⟩ = .ok .halt :=
  ⟨rfl, rfl, rfl⟩

/-- OpcodeZeroIsHalt. -/
theorem test_witness_opcode_zero : (InstrWord.mk 0x00 0xFF 0xFF 0xFF).b0 = 0#8 := rfl

/-- UnknownOpcodeIsFatal: the first and the last unknown byte 0, and a powered core that fetches one at the last word. -/
theorem test_witness_unknown_opcode :
    (∀ k, defaultMaps.opcode k ≠ 0x0C) ∧ (∀ k, defaultMaps.opcode k ≠ 0xFF) ∧
    (placeWord ⟨0x0C, 0x00, 0x00, 0x00⟩ (start 65532 [])).active ∧
    ((placeWord ⟨0x0C, 0x00, 0x00, 0x00⟩ (start 65532 [])).cell .pc).toNat ≤ 65532 ∧
    (placeWord ⟨0x0C, 0x00, 0x00, 0x00⟩ (start 65532 [])).wordAtPc.b0 = 0x0C :=
  ⟨fun k => by cases k <;> decide, fun k => by cases k <;> decide, ⟨rfl, rfl⟩, by decide, by decide⟩

/-- UnknownRegisterByteFaults: `0D` and `FF` are no ids, each format has an opcode, and a powered core fetches such a word. -/
theorem test_witness_unknown_register :
    (∀ r, defaultMaps.regId r ≠ 0x0D) ∧ (∀ r, defaultMaps.regId r ≠ 0xFF) ∧
    (defaultMaps.opcode .add = 0x02 ∧ Mnemonic.add.format = .rr) ∧ (defaultMaps.opcode .push = 0x08 ∧ Mnemonic.push.format = .r) ∧
    (defaultMaps.opcode .put = 0x07 ∧ Mnemonic.put.format = .ir) ∧ defaultMaps.regId (.cell .gp0) = 0x00 ∧
    (placeWord ⟨0x02, 0x0D, 0x00, 0x00⟩ (start 65532 [])).active ∧
    decode defaultMaps (placeWord ⟨0x02, 0x0D, 0x00, 0x00⟩ (start 65532 [])).wordAtPc = .error (.badRegister 0x0D) :=
  ⟨fun r => by rcases r with c | _ <;> [cases c; skip] <;> decide, fun r => by rcases r with c | _ <;> [cases c; skip] <;> decide,
    ⟨rfl, rfl⟩, ⟨rfl, rfl⟩, ⟨rfl, rfl⟩, rfl, ⟨rfl, rfl⟩, rfl⟩

/-- ReservedBytesAreRefused: a format N opcode that is not `halt`'s, and a powered core that fetches such a word. -/
theorem test_witness_reserved_bytes :
    (defaultMaps.opcode .noop = 0x01 ∧ Mnemonic.noop.format = .n ∧ Mnemonic.noop ≠ .halt) ∧ (0x01 : Byte) ≠ 0#8 ∧
    defaultMaps.regId (.cell .gp1) = 0x01 ∧ (placeWord ⟨0x01, 0x00, 0x00, 0x01⟩ (start 65532 [])).active ∧
    decode defaultMaps (placeWord ⟨0x01, 0x00, 0x00, 0x01⟩ (start 65532 [])).wordAtPc = .error .nonZeroReserved :=
  ⟨⟨rfl, rfl, by decide⟩, by decide, rfl, ⟨rfl, rfl⟩, rfl⟩

/-- PutImmediate: the ends of the immediate's range. -/
theorem test_witness_put_immediate :
    decode defaultMaps ⟨0x07, 0x00, 0x00, 0x00⟩ = .ok (.put 0 (.cell .gp0)) ∧
    decode defaultMaps ⟨0x07, 0xFF, 0xFF, 0x0C⟩ = .ok (.put 65535 (.cell .sp)) := ⟨rfl, rfl⟩

/-- StepRunsDecodedInstruction, NoopRule: `noop` decoded at the lowest, the last aligned and the last fetchable `pc`. -/
theorem test_witness_decodes_to :
    (noopAt 0).decodesTo defaultMaps .noop ∧ (noopAt 65528).decodesTo defaultMaps .noop ∧
    (noopAt 65531).decodesTo defaultMaps .noop ∧ (noopAt 65532).decodesTo defaultMaps .noop :=
  ⟨⟨⟨rfl, rfl⟩, by decide, rfl⟩, ⟨⟨rfl, rfl⟩, by decide, rfl⟩, ⟨⟨rfl, rfl⟩, by decide, rfl⟩, ⟨⟨rfl, rfl⟩, by decide, rfl⟩⟩

/-- StepRunsDecodedInstruction: the outcomes of an execute phase that its clauses tell apart. -/
theorem test_witness_step_clauses :
    faultOf (exec (.push (.cell .gp0)) (placeWord ⟨0x08, 0x00, 0x00, 0x00⟩ (start 40 [(.sp, 1)]))) = some (.spOutOfRange 1) ∧
    (placeWord ⟨0x08, 0x00, 0x00, 0x00⟩ (start 40 [(.sp, 1)])).decodesTo defaultMaps (.push (.cell .gp0)) ∧
    completes .halt State.reset = true ∧ State.reset.decodesTo defaultMaps .halt ∧
    statusAfter (exec (.push .out) (placeWord ⟨0x08, 0x0A, 0x00, 0x00⟩ (start 40 []))) =
      failed (.forbidden .push .src .out) 40 ∧
    (placeWord ⟨0x08, 0x0A, 0x00, 0x00⟩ (start 40 [])).decodesTo defaultMaps (.push .out) :=
  ⟨by decide, ⟨⟨rfl, rfl⟩, by decide, rfl⟩, by decide, ⟨⟨rfl, rfl⟩, by decide, rfl⟩, by decide, ⟨⟨rfl, rfl⟩, by decide, rfl⟩⟩

/-- HaltedStepIsNoOp. -/
theorem test_witness_halted : (State.reset.setHalted true).errorFree ∧ (State.reset.setHalted true).halted = true := ⟨rfl, rfl⟩

/-- NoStepAfterError. -/
theorem test_witness_after_error :
    (State.reset.setStatus (.faulted .stackOverflow)).status = .faulted .stackOverflow ∧
    (State.reset.setStatus (.refused .nonZeroReserved)).status = .refused .nonZeroReserved := ⟨rfl, rfl⟩

/-- ErrorsArePrecise: an error that changes nothing, and `pop`'s that has raised `sp`. -/
theorem test_witness_precise_errors :
    (placeWord ⟨0x0C, 0x00, 0x00, 0x00⟩ (start 40 [])).active ∧
    statusAfter (step (placeWord ⟨0x0C, 0x00, 0x00, 0x00⟩ (start 40 []))) = failed (.decodeError 0x0C) 40 ∧
    (placeWord ⟨0x09, 0x0B, 0x00, 0x00⟩ stackM).active ∧
    statusAfter (step (placeWord ⟨0x09, 0x0B, 0x00, 0x00⟩ stackM)) = failed (.forbidden .pop .dst (.cell .pc)) 40 :=
  ⟨⟨rfl, rfl⟩, by decide, ⟨rfl, rfl⟩, by decide⟩

/-- HostStepRecordsResult: each of the host's results. -/
theorem test_witness_host_results :
    (hostStep defaultMaps ⟨true, true⟩ (noopAt 0)).1 = .ok false ∧ (hostStep defaultMaps ⟨true, true⟩ State.reset).1 = .ok true ∧
    (hostStep defaultMaps ⟨true, true⟩ (noopAt 65532)).1 = .error (.pcOverflow 65532) ∧
    (hostStep defaultMaps ⟨true, true⟩ (placeWord ⟨0x01, 0x00, 0x00, 0x01⟩ State.reset)).1 = .refused .nonZeroReserved := by
  decide

/-- PlacedEncodingRuns, StoreSeenByFetch, WriteThenReadLittleEndian, EveryStepKeepsInv: memory in canonical form, empty and not. -/
theorem test_witness_wf :
    Memory.wf State.reset.mem = true ∧ Memory.wf (noopAt 65532).mem = true ∧ (noopAt 65532).mem ≠ [] ∧
    ((start 65532 []).cell .pc).toNat ≤ 65532 := by decide

/-- AluIsChecked and the rules of `add`, `sub`, `mul`: both sides of each limit. -/
theorem test_witness_alu :
    succeeds (.add (.cell .gp0) (.cell .gp1)) (start 40 [(.gp0, 65535), (.gp1, 0)]) = true ∧
    65535 < (65535 : Word).toNat + (1 : Word).toNat ∧ (65535 : Word).toNat + (0 : Word).toNat ≤ 65535 ∧
    (0 : Word).toNat < (1 : Word).toNat ∧ (7 : Word).toNat ≤ (7 : Word).toNat ∧
    65535 < (256 : Word).toNat * (256 : Word).toNat ∧ (255 : Word).toNat * (257 : Word).toNat ≤ 65535 := by decide

/-- WriteThenReadLittleEndian: the last address, and a second register that holds the same one. -/
theorem test_witness_write_then_read :
    (start 40 [(.gp0, 0xBEEF), (.gp1, 65534), (.gp2, 65534)]).cell .gp1 ≠ 65535#16 ∧
    cellAfter .gp2 (exec (.write (.cell .gp0) (.cell .gp1)) (start 40 [(.gp0, 0xBEEF), (.gp1, 65534), (.gp2, 65534)])) =
      some 65534 ∧ StoredReg.gp3 ≠ .pc ∧ StoredReg.gp3 ≠ .ans := by decide

/-- PushThenPop and PushRule: the ends of the range of `sp`, and every other clause of `sp`. -/
theorem test_witness_push :
    (2 ≤ ((start 40 [(.sp, 2)]).cell .sp).toNat ∧ ((start 40 [(.sp, 2)]).cell .sp).toNat ≤ 65534) ∧
    (2 ≤ ((start 40 [(.sp, 65534)]).cell .sp).toNat ∧ ((start 40 [(.sp, 65534)]).cell .sp).toNat ≤ 65534) ∧
    (start 40 [(.sp, 0)]).cell .sp = 0#16 ∧ (start 40 [(.sp, 1)]).cell .sp = 1#16 ∧
    (start 40 [(.sp, 65535)]).cell .sp = 65535#16 ∧ StoredReg.gp0 ≠ .pc ∧ StoredReg.gp0 ≠ .ans ∧ StoredReg.gp0 ≠ .sp := by
  decide

/-- PopRule: each clause of `sp`. -/
theorem test_witness_pop :
    ((start 40 [(.sp, 65532)]).cell .sp).toNat ≤ 65532 ∧ ((start 40 [(.sp, 0)]).cell .sp).toNat ≤ 65532 ∧
    (start 40 [(.sp, 65533)]).cell .sp = 65533#16 ∧ (start 40 [(.sp, 65534)]).cell .sp = 65534#16 ∧
    (start 40 [(.sp, 65535)]).cell .sp = 65535#16 := by decide

/-- StoreSeenByFetch: `gp1` holds the address of the last word. -/
theorem test_witness_store_at_pc :
    (start 65532 [(.gp1, 65532)]).cell .gp1 = (start 65532 [(.gp1, 65532)]).cell .pc ∧
    ((start 65532 [(.gp1, 65532)]).cell .pc).toNat ≤ 65532 := by decide

/-- DeviceMultiplexer, CopyOutRule: every sink, with a device and without. -/
theorem test_witness_sinks :
    ((start 40 [(.dvc, 0)]).cell .dvc = 0#16 ∧ (start 40 [(.dvc, 0)]).devices.slot0 = true) ∧
    ((start 40 [(.dvc, 1)]).cell .dvc = 1#16 ∧ (start 40 [(.dvc, 1)]).devices.slot1 = true) ∧
    (supply ⟨false, false⟩ (start 40 [(.dvc, 0)])).devices.slot0 = false ∧
    (supply ⟨false, false⟩ (start 40 [(.dvc, 1)])).devices.slot1 = false ∧
    (supply ⟨false, false⟩ (start 40 [(.dvc, 1)])).cell .dvc = 1#16 ∧
    2 ≤ ((start 40 [(.dvc, 2)]).cell .dvc).toNat ∧ 2 ≤ ((start 40 [(.dvc, 65535)]).cell .dvc).toNat := by decide

/-- HaltRule: a byte 0 of 0 at the last word. -/
theorem test_witness_halt :
    (start 65532 []).active ∧ ((start 65532 []).cell .pc).toNat ≤ 65532 ∧
    (start 65532 []).byte ((start 65532 []).cell .pc).toNat = 0#8 := ⟨⟨rfl, rfl⟩, by decide, by decide⟩

/-- CopyRegisterRule, PutRule, ReadRule: an allowed and the forbidden destinations. -/
theorem test_witness_destinations :
    StoredReg.gp0 ≠ .pc ∧ StoredReg.gp0 ≠ .ans ∧ Reg.cell .gp0 ≠ .out ∧
    succeeds (.copy (.cell .gp0) (.cell .sp)) State.reset = true ∧ succeeds (.put 0 (.cell .sp)) State.reset = true ∧
    succeeds (.read (.cell .gp0) (.cell .dvc)) State.reset = true := by decide

/-- JumpRule and JumpNetEffect: each clause of the target and the condition, at the ends of its range. -/
theorem test_witness_jump :
    (jumpAt 65532 [(.gp0, 4)]).decodesTo defaultMaps (.jump (.cell .gp0) (.cell .gp5)) ∧
    ((jumpAt 65532 [(.gp0, 4)]).cell .gp5 = 0#16 ∧ 4 ≤ ((jumpAt 65532 [(.gp0, 4)]).cell .gp0).toNat) ∧
    (jumpAt 0 [(.gp0, 3)]).decodesTo defaultMaps (.jump (.cell .gp0) (.cell .gp5)) ∧
    ((jumpAt 0 [(.gp0, 3)]).cell .gp5 = 0#16 ∧ ((jumpAt 0 [(.gp0, 3)]).cell .gp0).toNat < 4) ∧
    (jumpAt 65532 [(.gp5, 1)]).decodesTo defaultMaps (.jump (.cell .gp0) (.cell .gp5)) ∧
    ((jumpAt 65532 [(.gp5, 1)]).cell .gp5 ≠ 0#16 ∧ 65531 < ((jumpAt 65532 [(.gp5, 1)]).cell .pc).toNat) ∧
    (jumpAt 65531 [(.gp5, 65535)]).decodesTo defaultMaps (.jump (.cell .gp0) (.cell .gp5)) ∧
    ((jumpAt 65531 [(.gp5, 65535)]).cell .gp5 ≠ 0#16 ∧ ((jumpAt 65531 [(.gp5, 65535)]).cell .pc).toNat ≤ 65531) :=
  ⟨⟨⟨rfl, rfl⟩, by decide, rfl⟩, by decide, ⟨⟨rfl, rfl⟩, by decide, rfl⟩, by decide, ⟨⟨rfl, rfl⟩, by decide, rfl⟩, by decide,
    ⟨⟨rfl, rfl⟩, by decide, rfl⟩, by decide⟩

/-- WriteRule and ReadRule: the last address and the one past it. -/
theorem test_witness_addresses :
    (start 40 [(.gp1, 65535)]).cell .gp1 = 65535#16 ∧ (start 40 [(.gp1, 65534)]).cell .gp1 ≠ 65535#16 ∧
    (start 40 [(.gp1, 0)]).cell .gp1 ≠ 65535#16 := by decide

/-- RegisterFrame, ControlFrame, OutputFrame: a next state of every instruction, and one that records an error. -/
theorem test_witness_next_states :
    completes .halt stackM = true ∧ completes .noop stackM = true ∧ completes (.add (.cell .gp0) (.cell .gp1)) stackM = true ∧
    completes (.sub (.cell .gp0) (.cell .gp1)) stackM = true ∧ completes (.mul (.cell .gp0) (.cell .gp1)) stackM = true ∧
    completes (.copy (.cell .gp0) .out) stackM = true ∧ completes (.jump (.cell .gp0) (.cell .gp1)) stackM = true ∧
    completes (.put 7 (.cell .gp1)) stackM = true ∧ completes (.push (.cell .gp0)) stackM = true ∧
    completes (.pop (.cell .gp0)) stackM = true ∧ completes (.write (.cell .gp0) (.cell .gp1)) stackM = true ∧
    completes (.read (.cell .gp0) (.cell .gp1)) stackM = true ∧ completes (.add .out .out) stackM = true := by decide

/-- MemoryFrame: each of its clauses. -/
theorem test_witness_memory_frame :
    Memory.wf stackM.mem = true ∧ Instr.noop.mnemonic ≠ .write ∧ Instr.noop.mnemonic ≠ .push ∧
    completes (.push (.cell .gp0)) stackM = true ∧ completes (.push .out) stackM = true ∧
    (completes (.push (.cell .gp0)) (start 40 [(.sp, 0)]) = true ∧ (start 40 [(.sp, 0)]).cell .sp = 0#16) ∧
    completes (.write (.cell .sp) (.cell .sp)) stackM = true ∧ completes (.write .out (.cell .sp)) stackM = true ∧
    completes (.write (.cell .sp) .out) stackM = true := by decide

/-- OnlyArithmeticWritesAns: a step that changes `ans`. -/
theorem test_witness_ans_changes :
    cellAfter .ans (runWord (start 40 [(.gp0, 1)]) ⟨0x02, 0x00, 0x00, 0x00⟩) = some 2 ∧
    (placeWord ⟨0x02, 0x00, 0x00, 0x00⟩ (start 40 [(.gp0, 1)])).cell .ans = 0 := by decide

/-- OnlyJumpAndAdvanceWritePc, OutputsOnlyGrow, HaltedIsEnteredOnlyByHalt: steps with a next state, a halting one, and one of a
halted core. -/
theorem test_witness_steps :
    steps (noopAt 0) = true ∧ steps (jumpAt 100 [(.gp0, 23)]) = true ∧
    (State.reset.halted = false ∧ haltedAfter (step State.reset) = some true) ∧
    ((State.reset.setHalted true).halted = true ∧ steps (State.reset.setHalted true) = true) := by decide

/-- ExecFaultReasons: every fault of its list. -/
theorem test_witness_exec_faults :
    faultOf (exec (.push (.cell .gp0)) (start 40 [(.sp, 65535)])) = some (.memOutOfRange 65535) ∧
    faultOf (exec (.pop .out) (start 40 [(.sp, 65533)])) = some (.memOutOfRange 65535) ∧
    faultOf (exec (.write (.cell .gp0) (.cell .gp1)) (start 40 [(.gp1, 65535)])) = some (.memOutOfRange 65535) ∧
    faultOf (exec (.read (.cell .gp1) (.cell .gp0)) (start 40 [(.gp1, 65535)])) = some (.memOutOfRange 65535) ∧
    faultOf (exec (.push (.cell .gp0)) (start 40 [(.sp, 1)])) = some (.spOutOfRange 1) ∧
    faultOf (exec (.pop (.cell .gp0)) (start 40 [(.sp, 65535)])) = some (.spOutOfRange 65535) ∧
    faultOf (exec (.copy (.cell .gp0) .out) (supply ⟨false, true⟩ (start 40 []))) = some (.noDevice .slot0) ∧
    faultOf (exec (.copy (.cell .gp0) .out) (supply ⟨true, false⟩ (start 40 [(.dvc, 1)]))) = some (.noDevice .slot1) := by
  decide

/-- EveryStepKeepsInv, StepFaultReasons: states with the invariant that step, that fault in decode and that fault in the advance. -/
theorem test_witness_inv :
    ((noopAt 0).Inv ∧ steps (noopAt 0) = true) ∧ ((noopAt 65532).Inv ∧ (noopAt 65532).active) ∧
    faultOf (step (noopAt 65532)) = some (.pcOverflow 65532) ∧
    ((placeWord ⟨0x02, 0x0D, 0x00, 0x00⟩ (start 40 [])).Inv ∧ (placeWord ⟨0x02, 0x0D, 0x00, 0x00⟩ (start 40 [])).active) ∧
    faultOf (step (placeWord ⟨0x02, 0x0D, 0x00, 0x00⟩ (start 40 []))) = some (.badRegister 0x0D) :=
  ⟨⟨⟨by decide, by decide⟩, by decide⟩, ⟨⟨by decide, by decide⟩, ⟨rfl, rfl⟩⟩, by decide,
    ⟨⟨by decide, by decide⟩, ⟨rfl, rfl⟩⟩, by decide⟩

/-- OutputsAreNotObservable: each outcome of a step. -/
theorem test_witness_outcomes :
    steps (noopAt 0) = true ∧ faultOf (step (noopAt 65532)) = some (.pcOverflow 65532) ∧
    refusalOf (step (placeWord ⟨0x01, 0x00, 0x00, 0x01⟩ State.reset)) = some .nonZeroReserved := by decide

/-- LoadFillsMemory: the longest program that fits and the shortest that does not. -/
theorem test_witness_load :
    65536 ≤ (List.replicate 65536 (0 : Byte)).length ∧ (List.replicate 65535 (0 : Byte)).length < 65536 := by
  simp only [List.length_replicate]; decide

/-- AssembledAddresses, LoadSourceRule: a text that assembles and one that does not. -/
theorem test_witness_assemble :
    (assembled "noop .a\nhalt").isSome = true ∧ assembleStop "bogus" = some (.parseError "bogus".toList) := by decide

end Sys2Proof.Tests
end

/-! PROOFS. No execute phase is refused (R2, R90): an execute phase is built from checks and raised errors, and neither
answers a refusal. -/

namespace Sys2Proof.Machine

/-- The rule each execute phase is taken apart with: a check adds no refusal to its continuation. -/
theorem orRaise_ne_refused {α : Type} {s : State} {x : Except Error α} {k : α → Result} {n : Refusal}
    (hk : ∀ a, k a ≠ .refused n) : orRaise s x k ≠ .refused n := by
  intro h
  obtain ⟨a, -, ha⟩ := orRaise_refused.1 h
  exact hk a ha

/-- A check whose continuation answers a state: the last stage of most execute phases. -/
theorem orRaise_thenNext_ne_refused {α : Type} {s : State} {x : Except Error α} {f : α → State} {n : Refusal} :
    orRaise s x (fun a => .next (f a)) ≠ .refused n :=
  orRaise_ne_refused fun _ => nofun

theorem arithmetic_ne_refused (op : Mnemonic) (f : AluOp) (x y : Reg) (s : State) (n : Refusal) :
    arithmetic op f x y s ≠ .refused n :=
  orRaise_ne_refused fun _ => orRaise_ne_refused fun _ => orRaise_thenNext_ne_refused

theorem execCopy_ne_refused (src dst : Reg) (s : State) (n : Refusal) : execCopy src dst s ≠ .refused n :=
  orRaise_ne_refused fun _ => orRaise_thenNext_ne_refused

theorem execJump_ne_refused (addr cond : Reg) (s : State) (n : Refusal) : execJump addr cond s ≠ .refused n :=
  orRaise_ne_refused fun _ => orRaise_thenNext_ne_refused

theorem execPut_ne_refused (value : Word) (dst : Reg) (s : State) (n : Refusal) : execPut value dst s ≠ .refused n :=
  orRaise_thenNext_ne_refused

theorem execPush_ne_refused (src : Reg) (s : State) (n : Refusal) : execPush src s ≠ .refused n := by
  simp only [execPush]
  split
  · exact raise_ne_refused _ _ n
  refine orRaise_ne_refused fun v => ?_
  split
  · exact raise_ne_refused _ _ n
  split
  · exact raise_ne_refused _ _ n
  · exact orRaise_thenNext_ne_refused

theorem execPop_ne_refused (dst : Reg) (s : State) (n : Refusal) : execPop dst s ≠ .refused n := by
  simp only [execPop]
  split
  · exact raise_ne_refused _ _ n
  split
  · exact raise_ne_refused _ _ n
  · exact orRaise_ne_refused fun _ => orRaise_thenNext_ne_refused

theorem execWrite_ne_refused (src addr : Reg) (s : State) (n : Refusal) : execWrite src addr s ≠ .refused n :=
  orRaise_ne_refused fun _ => orRaise_ne_refused fun _ => orRaise_thenNext_ne_refused

theorem execRead_ne_refused (addr dst : Reg) (s : State) (n : Refusal) : execRead addr dst s ≠ .refused n :=
  orRaise_ne_refused fun _ => orRaise_ne_refused fun _ => orRaise_thenNext_ne_refused

/-- Settles O44, by the dispatch of R90: the execute phase of each of the twelve instructions is not refused. -/
theorem noInstructionIsRefused : Obligations.NoInstructionIsRefused := by
  intro i s n
  cases i with
  | halt => exact nofun
  | noop => exact nofun
  | add x y => exact arithmetic_ne_refused .add .add x y s n
  | sub x y => exact arithmetic_ne_refused .sub .sub x y s n
  | mul x y => exact arithmetic_ne_refused .mul .mul x y s n
  | copy src dst => exact execCopy_ne_refused src dst s n
  | jump addr cond => exact execJump_ne_refused addr cond s n
  | put value dst => exact execPut_ne_refused value dst s n
  | push src => exact execPush_ne_refused src s n
  | pop dst => exact execPop_ne_refused dst s n
  | write src addr => exact execWrite_ne_refused src addr s n
  | read addr dst => exact execRead_ne_refused addr dst s n

end Sys2Proof.Machine

/-! PROOFS. The rules of 10_state.md: reset, the register file, what an execute phase leaves unchanged, and what every step
keeps. -/

namespace Sys2Proof.Machine

/-! ### Reset, the register file, and a step after an error -/

/-- Settles O51, register by register. -/
theorem resetChoices : Obligations.ResetChoices := by
  refine ⟨fun c hc => ?_, rfl, rfl⟩
  cases c with
  | sp => exact absurd rfl hc
  | _ => rfl

/-- Settles O15, by the two equations of the generic read. -/
theorem genericRead : Obligations.GenericRead := fun s => ⟨readReg_out s, fun c => readReg_cell c s⟩

/-- Settles O16: the write of a stored register is `setCell`, whose frame is `sameBut_setCell`. -/
theorem genericWrite : Obligations.GenericWrite := fun s v =>
  ⟨rfl, fun c => ⟨s.setCell c v, rfl, State.cell_setCell_same s c v, sameBut_setCell s v List.mem_cons_self⟩⟩

/-- Settles O11: the step looks at the status first. -/
theorem noStepAfterError : Obligations.NoStepAfterError := by
  intro m s
  constructor
  · intro e he
    simp only [stepWith, he]
  · intro n hn
    simp only [stepWith, hn]

/-! ### Agreement of states -/

theorem sameApartMem.refl (cells : List StoredReg) (s : State) : sameApartMem cells s s :=
  ⟨fun _ _ => rfl, rfl, rfl, rfl, rfl, rfl, rfl⟩

theorem sameApartMem.trans {cells : List StoredReg} {s t u : State} (hst : sameApartMem cells s t)
    (htu : sameApartMem cells t u) : sameApartMem cells s u := by
  obtain ⟨c₁, h₁, st₁, co₁, hi₁, d₁, sc₁⟩ := hst
  obtain ⟨c₂, h₂, st₂, co₂, hi₂, d₂, sc₂⟩ := htu
  exact ⟨fun c hc => (c₂ c hc).trans (c₁ c hc), h₂.trans h₁, st₂.trans st₁, co₂.trans co₁, hi₂.trans hi₁, d₂.trans d₁,
    sc₂.trans sc₁⟩

theorem sameApartMem_setCell {cells : List StoredReg} (s : State) {c : StoredReg} (v : Word) (h : c ∈ cells) :
    sameApartMem cells s (s.setCell c v) := (sameBut_setCell s v h).1

/-- A 2-byte store changes nothing but memory (R36, R45). -/
theorem sameApartMem_store16 {a v : Word} {s t : State} (cells : List StoredReg) (h : store16 a v s = .ok t) :
    sameApartMem cells s t := by
  obtain ⟨-, rfl⟩ := store16_cases h
  exact .refl cells s

/-- The state with another console and another output history (R28, R29). -/
def State.withOutputs (console : List Word) (history : List DeviceEvent) (s : State) : State :=
  { s with console := console, history := history }

/-- The device multiplexer changes nothing but the console and the output history (R98). -/
theorem outWrite_withOutputs {v : Word} {s t : State} (h : outWrite v s = .ok t) :
    ∃ console history, t = s.withOutputs console history := by
  rcases outWrite_cases h with ⟨k, -, -, rfl⟩ | ⟨-, -, rfl⟩
  · exact ⟨s.console, s.history ++ [{ slot := k, value := v }], rfl⟩
  · exact ⟨s.console ++ [v], s.history, rfl⟩

@[simp] theorem State.setCell_cell (s : State) (c : StoredReg) : s.setCell c (s.cell c) = s := by
  simp [State.setCell, State.cell]

theorem sameMachine.refl (s : State) : sameMachine s s := ⟨rfl, rfl, rfl, rfl, rfl, rfl⟩

theorem sameMachine.cell {s t : State} (h : sameMachine s t) (c : StoredReg) : t.cell c = s.cell c :=
  congrArg (·.get c) h.1

/-! ### The table of R25 -/

theorem mem_destCells {c : StoredReg} (hp : c ≠ .pc) (ha : c ≠ .ans) : c ∈ destCells (.cell c) := by
  cases c with
  | pc => exact absurd rfl hp
  | ans => exact absurd rfl ha
  | _ => exact List.mem_cons_self

theorem ans_notMem_destCells (r : Reg) : StoredReg.ans ∉ destCells r := by
  cases r with
  | out => decide
  | cell c => cases c <;> decide

theorem pc_notMem_destCells (r : Reg) : StoredReg.pc ∉ destCells r := by
  cases r with
  | out => decide
  | cell c => cases c <;> decide

/-- The table gives `ans` to the three arithmetic instructions only (R19). -/
theorem ans_mem_mayWrite {i : Instr} (h : StoredReg.ans ∈ Instr.mayWrite i) :
    ∃ x y, i = .add x y ∨ i = .sub x y ∨ i = .mul x y := by
  cases i with
  | add x y => exact ⟨x, y, .inl rfl⟩
  | sub x y => exact ⟨x, y, .inr (.inl rfl)⟩
  | mul x y => exact ⟨x, y, .inr (.inr rfl)⟩
  | _ => simp [Instr.mayWrite, ans_notMem_destCells] at h

/-- The table gives `pc` to `jump` only (R20). -/
theorem pc_mem_mayWrite {i : Instr} (h : StoredReg.pc ∈ Instr.mayWrite i) : ∃ addr cond, i = .jump addr cond := by
  cases i with
  | jump addr cond => exact ⟨addr, cond, rfl⟩
  | _ => simp [Instr.mayWrite, pc_notMem_destCells] at h

/-! ### What an execute phase leaves unchanged -/

/-- The four kinds of next state of an execute phase: an error recorded over the cells of R25's table (`pop` has raised `sp`
by then), a halt, a `copy` to `out`, and an effect on those cells and on memory only. -/
theorem ExecNext.frame {i : Instr} {s t : State} (h : ExecNext s i t) :
    (∃ e u, e.fault? = none ∧ sameApartMem (Instr.mayWrite i) s u ∧ t = u.setStatus (.faulted e)) ∨
    (i = .halt ∧ t = s.setHalted true) ∨
    (∃ a, i = .copy (.cell a) .out ∧ outWrite (s.cell a) s = .ok t) ∨
    sameApartMem (Instr.mayWrite i) s t := by
  cases h with
  | raised _ e he => exact .inl ⟨e, s, he, .refl _ s, rfl⟩
  | popRaised => exact .inl ⟨_, _, rfl, sameApartMem_setCell s _ List.mem_cons_self, rfl⟩
  | halt => exact .inr (.inl ⟨rfl, rfl⟩)
  | copyOut a _ ho => exact .inr (.inr (.inl ⟨a, rfl, ho⟩))
  | noop | jumpNotTaken => exact .inr (.inr (.inr (.refl _ s)))
  | add | sub | mul | jumpTaken => exact .inr (.inr (.inr (sameApartMem_setCell s _ List.mem_cons_self)))
  | copy _ c hp ha | put _ c hp ha | read _ c _ hp ha =>
    exact .inr (.inr (.inr (sameApartMem_setCell s _ (mem_destCells hp ha))))
  | push _ u _ _ hu =>
    exact .inr (.inr (.inr ((sameApartMem_store16 _ hu).trans (sameApartMem_setCell u _ List.mem_cons_self))))
  | pop c _ hp ha =>
    exact .inr (.inr (.inr ((sameApartMem_setCell s _ List.mem_cons_self).trans
      (sameApartMem_setCell _ _ (List.mem_cons_of_mem _ (mem_destCells hp ha))))))
  | write _ _ _ hu => exact .inr (.inr (.inr (sameApartMem_store16 _ hu)))

theorem ExecNext.cell_eq {i : Instr} {s t : State} (h : ExecNext s i t) {c : StoredReg} (hc : c ∉ Instr.mayWrite i) :
    t.cell c = s.cell c := by
  rcases h.frame with ⟨e, u, -, hu, rfl⟩ | ⟨-, rfl⟩ | ⟨a, -, ho⟩ | ht
  · exact hu.1 c hc
  · rfl
  · obtain ⟨_, _, rfl⟩ := outWrite_withOutputs ho
    rfl
  · exact ht.1 c hc

/-- An execute phase changes the super-state only for `halt` (R27). -/
theorem ExecNext.halted_eq {i : Instr} {s t : State} (h : ExecNext s i t) (hi : i ≠ .halt) : t.halted = s.halted := by
  rcases h.frame with ⟨e, u, -, ⟨-, hu, -⟩, rfl⟩ | ⟨rfl, -⟩ | ⟨a, -, ho⟩ | ⟨-, ht, -⟩
  · exact hu
  · exact absurd rfl hi
  · obtain ⟨_, _, rfl⟩ := outWrite_withOutputs ho
    rfl
  · exact ht

/-- An execute phase keeps the status or records one of the document's own errors (R30). -/
theorem ExecNext.status_cases {i : Instr} {s t : State} (h : ExecNext s i t) :
    t.status = s.status ∨ ∃ e, e.fault? = none ∧ t.status = .faulted e := by
  rcases h.frame with ⟨e, u, he, -, rfl⟩ | ⟨-, rfl⟩ | ⟨a, -, ho⟩ | ⟨-, -, ht, -⟩
  · exact .inr ⟨e, he, rfl⟩
  · exact .inl rfl
  · obtain ⟨_, _, rfl⟩ := outWrite_withOutputs ho
    exact .inl rfl
  · exact .inl ht

/-- An execute phase leaves the host's device supply alone (R33). -/
theorem ExecNext.supply_eq {i : Instr} {s t : State} (h : ExecNext s i t) :
    t.devices = s.devices ∧ t.schedule = s.schedule := by
  rcases h.frame with ⟨e, u, -, ⟨-, -, -, -, -, hu⟩, rfl⟩ | ⟨-, rfl⟩ | ⟨a, -, ho⟩ | ⟨-, -, -, -, -, ht⟩
  · exact hu
  · exact ⟨rfl, rfl⟩
  · obtain ⟨_, _, rfl⟩ := outWrite_withOutputs ho
    exact ⟨rfl, rfl⟩
  · exact ht

/-- An execute phase keeps console and output history, or is a `copy` to `out` that the multiplexer accepts (R18). -/
theorem ExecNext.output_cases {i : Instr} {s t : State} (h : ExecNext s i t) :
    (t.console = s.console ∧ t.history = s.history) ∨
      ∃ a, i = .copy (.cell a) .out ∧ outWrite (s.cell a) s = .ok t := by
  rcases h.frame with ⟨e, u, -, ⟨-, -, -, hc, hh, -⟩, rfl⟩ | ⟨-, rfl⟩ | hout | ⟨-, -, -, hc, hh, -⟩
  · exact .inl ⟨hc, hh⟩
  · exact .inl ⟨rfl, rfl⟩
  · exact .inr hout
  · exact .inl ⟨hc, hh⟩

/-- An execute phase writes `pc` only for a taken `jump` (R20, R109). -/
theorem ExecNext.pc_cases {i : Instr} {s t : State} (h : ExecNext s i t) :
    t.cell .pc = s.cell .pc ∨
      ∃ a c, i = .jump (.cell a) (.cell c) ∧ s.cell c = 0#16 ∧ t.cell .pc = jumpTarget (s.cell a) := by
  by_cases hpc : StoredReg.pc ∈ Instr.mayWrite i
  · obtain ⟨addr, cond, rfl⟩ := pc_mem_mayWrite hpc
    cases h with
    | raised | jumpNotTaken => exact .inl rfl
    | jumpTaken a c hz => exact .inr ⟨a, c, rfl, hz, State.cell_setCell_same s .pc _⟩
  · exact .inl (h.cell_eq hpc)

/-- An execute phase keeps memory canonical (R31): only `push` and `write` touch it, by a 2-byte store. -/
theorem ExecNext.wf_mem {i : Instr} {s t : State} (h : ExecNext s i t) (hw : Memory.wf s.mem = true) :
    Memory.wf t.mem = true := by
  cases h with
  | push _ _ _ _ hu =>
    rw [State.mem_setCell]
    exact store16_wf hu hw
  | write _ _ _ hu => exact store16_wf hu hw
  | copyOut _ _ ho =>
    obtain ⟨_, _, rfl⟩ := outWrite_withOutputs ho
    exact hw
  | _ => exact hw

/-- Settles O36, by the frame of the execute phase. -/
theorem registerFrame : Obligations.RegisterFrame := fun _ _ _ h _ hc => (exec_next h).cell_eq hc

/-- Settles O38, field by field. -/
theorem controlFrame : Obligations.ControlFrame := fun _ _ _ h =>
  ⟨(exec_next h).halted_eq, (exec_next h).status_cases, (exec_next h).supply_eq⟩

/-- Settles O39, by the sinks of the device multiplexer (R98). -/
theorem outputFrame : Obligations.OutputFrame := by
  intro i s t h
  rcases (exec_next h).output_cases with hkept | ⟨a, rfl, ho⟩
  · exact .inl hkept
  refine .inr ⟨a, rfl, ?_⟩
  rcases outWrite_cases ho with ⟨k, hk, hpresent, rfl⟩ | ⟨h0, h1, rfl⟩
  · refine .inr ⟨k, rfl, rfl, hpresent, ?_⟩
    rcases hk with ⟨rfl, hd⟩ | ⟨rfl, hd⟩ <;> simp [hd]
  · exact .inl ⟨rfl, rfl, by bv_omega⟩

/-! ### What a step leaves unchanged -/

/-- The values stage 4 of R87 can leave in `pc`: the one execute left, or that plus 4 (R91). -/
def PcAfter (u : State) (v : Word) : Prop :=
  v = u.cell .pc ∨ ((u.cell .pc).toNat ≤ 65531 ∧ v = u.cell .pc + 4#16)

/-- Stage 4 changes nothing but `pc` and the host's supply. -/
theorem complete_sameMachine {i : Instr} {u t : State} (h : complete i u = .next t) :
    ∃ v, PcAfter u v ∧ sameMachine (u.setCell .pc v) t := by
  rcases complete_next h with ⟨-, rfl⟩ | ⟨-, -, rfl⟩ | ⟨-, -, hp, rfl⟩
  · exact ⟨t.cell .pc, .inl rfl, by rw [State.setCell_cell]; exact .refl t⟩
  · exact ⟨u.cell .pc, .inl rfl, by rw [State.setCell_cell]; exact sameMachine_nextSupply u⟩
  · exact ⟨_, .inr ⟨hp, rfl⟩, sameMachine_nextSupply _⟩

/-- A step that answers a state changes at most the status, or completes the execute phase of the word at `pc`. -/
theorem stepWith_frame {m : Maps} {s t : State} (h : stepWith m s = .next t) :
    (∃ st, t = s.setStatus st) ∨
      ∃ i u v, decode m s.wordAtPc = .ok i ∧ ExecNext s i u ∧ PcAfter u v ∧ sameMachine (u.setCell .pc v) t := by
  obtain ⟨-, ⟨-, rfl⟩ | ⟨-, -, b, -, rfl⟩ | ⟨i, u, ⟨-, -, hd⟩, hu, hc⟩⟩ := stepWith_next h
  · exact .inl ⟨t.status, rfl⟩
  · exact .inl ⟨_, rfl⟩
  · obtain ⟨v, hv, hsame⟩ := complete_sameMachine hc
    exact .inr ⟨i, u, v, hd, hu, hv, hsame⟩

/-- A cell other than `pc` changes in a step only if the table of R25 gives it to the instruction at `pc`. -/
theorem stepWith_cell_changed {m : Maps} {s t : State} {c : StoredReg} (h : stepWith m s = .next t) (hc : c ≠ .pc)
    (hne : t.cell c ≠ s.cell c) : ∃ i, decode m s.wordAtPc = .ok i ∧ c ∈ Instr.mayWrite i := by
  rcases stepWith_frame h with ⟨st, rfl⟩ | ⟨i, u, v, hd, hu, -, hsame⟩
  · exact absurd rfl hne
  · refine ⟨i, hd, by_contra fun hmem => hne ?_⟩
    rw [hsame.cell, State.cell_setCell_ne u v hc, hu.cell_eq hmem]

/-- Settles O40, by the table of R25. -/
theorem onlyArithmeticWritesAns : Obligations.OnlyArithmeticWritesAns := by
  intro m s t h hne
  obtain ⟨i, hd, hmem⟩ := stepWith_cell_changed h (by decide) hne
  obtain ⟨x, y, hi⟩ := ans_mem_mayWrite hmem
  exact ⟨x, y, by simpa [hd] using hi⟩

/-- Settles O41: execute leaves `pc` or takes a jump, and stage 4 leaves it or adds 4. -/
theorem onlyJumpAndAdvanceWritePc : Obligations.OnlyJumpAndAdvanceWritePc := by
  intro m s t h
  rcases stepWith_frame h with ⟨st, rfl⟩ | ⟨i, u, v, hd, hu, hv, hsame⟩
  · exact .inl rfl
  rcases hu.pc_cases with hpc | ⟨a, c, rfl, hz, -⟩
  · rw [hsame.cell, State.cell_setCell_same, ← hpc]
    exact hv.imp id fun hadv => .inl hadv.2
  · exact .inr (.inr ⟨a, c, hd, hz⟩)

/-- Settles O42: a halted core answers itself (R88), and stage 4 leaves the super-state to the execute phase. -/
theorem haltedIsEnteredOnlyByHalt : Obligations.HaltedIsEnteredOnlyByHalt := by
  intro m s t h
  constructor
  · intro hhalted
    obtain ⟨hfree, -⟩ := stepWith_next h
    have hself : stepWith m s = .next s := by simp [stepWith, show s.status = .running from hfree, hhalted]
    exact (Host.Outcome.next.inj (hself.symm.trans h)).symm
  · intro hpowered hhalted
    rcases stepWith_frame h with ⟨st, rfl⟩ | ⟨i, u, v, hd, hu, -, -, hsame, -⟩
    · rw [State.halted_setStatus, hpowered] at hhalted
      cases hhalted
    · have hi : i = .halt := by_contra fun hi => by
        rw [hsame, State.halted_setCell, hu.halted_eq hi, hpowered] at hhalted
        cases hhalted
      rw [hd, hi]

/-- The multiplexer adds one entry, to the console or to the output history. -/
theorem outWrite_grows {v : Word} {s t : State} (h : outWrite v s = .ok t) :
    ∃ vs es, t.console = s.console ++ vs ∧ t.history = s.history ++ es ∧ vs.length + es.length ≤ 1 := by
  rcases outWrite_cases h with ⟨k, -, -, rfl⟩ | ⟨-, -, rfl⟩
  · exact ⟨[], [{ slot := k, value := v }], (List.append_nil _).symm, rfl, le_rfl⟩
  · exact ⟨[v], [], rfl, (List.append_nil _).symm, le_rfl⟩

/-- Settles O43: of a step, only the device multiplexer adds to the console or the history. -/
theorem outputsOnlyGrow : Obligations.OutputsOnlyGrow := by
  intro m s t h
  rcases stepWith_frame h with ⟨st, rfl⟩ | ⟨i, u, v, -, hu, -, -, -, -, -, hconsole, hhistory⟩
  · exact ⟨[], [], by simp, by simp, Nat.zero_le 1⟩
  rw [hconsole, hhistory, State.console_setCell, State.history_setCell]
  rcases hu.output_cases with ⟨hc, hh⟩ | ⟨a, -, ho⟩
  · exact ⟨[], [], by simp [hc], by simp [hh], Nat.zero_le 1⟩
  · exact outWrite_grows ho

/-! ### The invariant -/

/-- An execute phase keeps the invariant: a taken `jump` writes a multiple of 4 to `pc` (R21), the rest leave it. -/
theorem ExecNext.inv {i : Instr} {s u : State} (h : ExecNext s i u) (hs : s.Inv) : u.Inv := by
  refine ⟨h.wf_mem hs.1, ?_⟩
  rcases h.pc_cases with hpc | ⟨a, c, -, -, hpc⟩
  · rw [hpc]; exact hs.2
  · rw [hpc]; exact jumpTarget_aligned _

/-- Stage 4 keeps `pc` a multiple of 4: where it adds 4, the sum does not wrap (R91). -/
theorem PcAfter.aligned {u : State} {v : Word} (h : PcAfter u v) (hu : (u.cell .pc).toNat % 4 = 0) : v.toNat % 4 = 0 := by
  rcases h with rfl | ⟨hp, rfl⟩
  · exact hu
  · bv_omega

theorem stepWith_inv {m : Maps} {s t : State} (hs : s.Inv) (h : stepWith m s = .next t) : t.Inv := by
  rcases stepWith_frame h with ⟨st, rfl⟩ | ⟨i, u, v, -, hu, hv, hsame⟩
  · exact hs
  obtain ⟨hwf, hpc⟩ := hu.inv hs
  constructor
  · obtain ⟨-, -, -, hmem, -⟩ := hsame
    rw [hmem]
    exact hwf
  · rw [hsame.cell, State.cell_setCell_same]
    exact hv.aligned hpc

/-- Settles O46: stage by stage, for any maps; the machine's step is one of them. -/
theorem everyStepKeepsInv : Obligations.EveryStepKeepsInv :=
  ⟨fun _ _ hs h => stepWith_inv hs h, fun _ _ _ hs h => stepWith_inv hs h⟩

end Sys2Proof.Machine

/-! PROOFS. No step depends on the console or the output history (R28, R29): from states alike but for those two, each stage
of R87 has alike outcomes. -/

namespace Sys2Proof.Machine

/-! ### Alike states, outcomes and checks -/

/-- The two states differ at most in console and output history. -/
def AlikeStates (s s' : State) : Prop := ∃ console history, s' = s.withOutputs console history

/-- The same outcome but for console and output history. -/
def AlikeResults : Result → Result → Prop
  | .next t, o => ∃ t', o = .next t' ∧ AlikeStates t t'
  | .fault f, o => o = .fault f
  | .refused n, o => o = .refused n

/-- Two checks that both pass, with states that differ at most in the outputs, or that fail with the same error. -/
def AlikeChecks (x x' : Except Error State) : Prop :=
  (∃ t t', x = .ok t ∧ x' = .ok t' ∧ AlikeStates t t') ∨ ∃ e, x = .error e ∧ x' = .error e

section

variable {s s' : State}

theorem AlikeResults.next (hs : AlikeStates s s') : AlikeResults (.next s) (.next s') := ⟨s', rfl, hs⟩

/-! ### What alike states share -/

theorem AlikeStates.cell (hs : AlikeStates s s') (c : StoredReg) : s'.cell c = s.cell c := by
  obtain ⟨_, _, rfl⟩ := hs; rfl

theorem AlikeStates.status (hs : AlikeStates s s') : s'.status = s.status := by obtain ⟨_, _, rfl⟩ := hs; rfl

theorem AlikeStates.halted (hs : AlikeStates s s') : s'.halted = s.halted := by obtain ⟨_, _, rfl⟩ := hs; rfl

theorem AlikeStates.devices (hs : AlikeStates s s') : s'.devices = s.devices := by obtain ⟨_, _, rfl⟩ := hs; rfl

theorem AlikeStates.srcRead (hs : AlikeStates s s') (op : Mnemonic) (role : Role) (r : Reg) :
    srcRead op role r s' = srcRead op role r s := by
  cases r with
  | out => rfl
  | cell c => rw [srcRead_cell, srcRead_cell, hs.cell]

theorem AlikeStates.readReg (hs : AlikeStates s s') (r : Reg) : readReg r s' = readReg r s := by
  cases r with
  | out => rfl
  | cell c => rw [readReg_cell, readReg_cell, hs.cell]

theorem AlikeStates.load16 (hs : AlikeStates s s') (a : Word) : load16 a s' = load16 a s := by
  obtain ⟨_, _, rfl⟩ := hs; rfl

theorem AlikeStates.fetch (hs : AlikeStates s s') : fetch s' = fetch s := by obtain ⟨_, _, rfl⟩ := hs; rfl

/-! ### Updates keep states alike -/

theorem AlikeStates.setCell (hs : AlikeStates s s') (c : StoredReg) (v : Word) :
    AlikeStates (s.setCell c v) (s'.setCell c v) := by
  obtain ⟨console, history, rfl⟩ := hs
  exact ⟨console, history, rfl⟩

theorem AlikeStates.setStatus (hs : AlikeStates s s') (st : Status) : AlikeStates (s.setStatus st) (s'.setStatus st) := by
  obtain ⟨console, history, rfl⟩ := hs
  exact ⟨console, history, rfl⟩

theorem AlikeStates.setHalted (hs : AlikeStates s s') (b : Bool) : AlikeStates (s.setHalted b) (s'.setHalted b) := by
  obtain ⟨console, history, rfl⟩ := hs
  exact ⟨console, history, rfl⟩

theorem AlikeStates.setByte (hs : AlikeStates s s') (a : Nat) (v : Byte) : AlikeStates (s.setByte a v) (s'.setByte a v) := by
  obtain ⟨console, history, rfl⟩ := hs
  exact ⟨console, history, rfl⟩

theorem AlikeStates.nextSupply (hs : AlikeStates s s') : AlikeStates (nextSupply s) (nextSupply s') := by
  obtain ⟨console, history, rfl⟩ := hs
  refine ⟨console, history, ?_⟩
  simp only [Machine.nextSupply, State.withOutputs]
  split <;> rfl

theorem AlikeStates.recordEvent (hs : AlikeStates s s') (e : DeviceEvent) :
    AlikeStates (recordEvent e s) (recordEvent e s') := by
  obtain ⟨console, history, rfl⟩ := hs
  exact ⟨console, history ++ [e], rfl⟩

theorem AlikeStates.consoleAppend (hs : AlikeStates s s') (v : Word) :
    AlikeStates (consoleAppend v s) (consoleAppend v s') := by
  obtain ⟨console, history, rfl⟩ := hs
  exact ⟨console ++ [v], history, rfl⟩

/-! ### Checks and raised errors -/

theorem AlikeChecks.ok (hs : AlikeStates s s') : AlikeChecks (.ok s) (.ok s') := .inl ⟨s, s', rfl, rfl, hs⟩

theorem AlikeChecks.error (e : Error) : AlikeChecks (.error e) (.error e) := .inr ⟨e, rfl, rfl⟩

theorem AlikeChecks.ite {p : Prop} [Decidable p] {x x' y y' : Except Error State} (hx : AlikeChecks x x')
    (hy : AlikeChecks y y') : AlikeChecks (if p then x else y) (if p then x' else y') := by
  split
  · exact hx
  · exact hy

theorem AlikeResults.ite {p : Prop} [Decidable p] {o o' q q' : Result} (ho : AlikeResults o o') (hq : AlikeResults q q') :
    AlikeResults (if p then o else q) (if p then o' else q') := by
  split
  · exact ho
  · exact hq

theorem AlikeStates.raise (hs : AlikeStates s s') (e : Error) : AlikeResults (raise e s) (raise e s') := by
  unfold Machine.raise
  split
  · rfl
  · exact .next (hs.setStatus _)

/-- One check in two alike states: the continuations decide. -/
theorem AlikeStates.orRaise {α : Type} (hs : AlikeStates s s') {x : Except Error α} {k k' : α → Result}
    (hk : ∀ a, AlikeResults (k a) (k' a)) : AlikeResults (orRaise s x k) (orRaise s' x k') := by
  cases x with
  | error e => exact hs.raise e
  | ok a => exact hk a

/-- Two alike checks, each answering its own state. -/
theorem AlikeStates.orRaise_checks (hs : AlikeStates s s') {x x' : Except Error State} (hx : AlikeChecks x x')
    {k k' : State → Result} (hk : ∀ t t', AlikeStates t t' → AlikeResults (k t) (k' t')) :
    AlikeResults (Machine.orRaise s x k) (Machine.orRaise s' x' k') := by
  rcases hx with ⟨t, t', rfl, rfl, ht⟩ | ⟨e, rfl, rfl⟩
  · exact hk t t' ht
  · exact hs.raise e

theorem AlikeStates.orRaise_next (hs : AlikeStates s s') {x x' : Except Error State} (hx : AlikeChecks x x') :
    AlikeResults (Machine.orRaise s x fun t => .next t) (Machine.orRaise s' x' fun t => .next t) :=
  hs.orRaise_checks hx fun _ _ => .next

/-! ### The shared operations -/

theorem AlikeStates.putWrite (hs : AlikeStates s s') (op : Mnemonic) (r : Reg) (v : Word) :
    AlikeChecks (putWrite op r v s) (putWrite op r v s') := by
  unfold Machine.putWrite
  cases putDest op r with
  | error e => exact .error e
  | ok c => exact .ok (hs.setCell c v)

theorem AlikeStates.store16 (hs : AlikeStates s s') (a v : Word) : AlikeChecks (store16 a v s) (store16 a v s') :=
  .ite (.ok ((hs.setByte _ _).setByte _ _)) (.error _)

theorem AlikeStates.deviceWrite (hs : AlikeStates s s') (k : Slot) (v : Word) :
    AlikeChecks (deviceWrite k v s) (deviceWrite k v s') := by
  simp only [Machine.deviceWrite, hs.devices]
  exact .ite (.ok (hs.recordEvent _)) (.error _)

theorem AlikeStates.outWrite (hs : AlikeStates s s') (v : Word) : AlikeChecks (outWrite v s) (outWrite v s') := by
  simp only [Machine.outWrite, hs.cell]
  exact .ite (hs.deviceWrite .slot0 v) (.ite (hs.deviceWrite .slot1 v) (.ok (hs.consoleAppend v)))

theorem AlikeStates.copyWrite (hs : AlikeStates s s') (r : Reg) (v : Word) :
    AlikeChecks (copyWrite r v s) (copyWrite r v s') := by
  cases r with
  | out => exact hs.outWrite v
  | cell c => exact .ite (.error _) (.ok (hs.setCell c v))

theorem AlikeStates.advance (hs : AlikeStates s s') : AlikeChecks (advance s) (advance s') := by
  simp only [Machine.advance, hs.cell]
  exact .ite (.error _) (.ok (hs.setCell .pc _))

/-! ### The execute phases -/

theorem AlikeStates.arithmetic (hs : AlikeStates s s') (op : Mnemonic) (f : AluOp) (x y : Reg) :
    AlikeResults (arithmetic op f x y s) (arithmetic op f x y s') := by
  simp only [Machine.arithmetic, hs.srcRead]
  exact hs.orRaise fun a => hs.orRaise fun b => hs.orRaise fun r => .next (hs.setCell .ans r)

theorem AlikeStates.execCopy (hs : AlikeStates s s') (src dst : Reg) :
    AlikeResults (execCopy src dst s) (execCopy src dst s') := by
  simp only [Machine.execCopy, hs.srcRead]
  exact hs.orRaise fun v => hs.orRaise_next (hs.copyWrite dst v)

theorem AlikeStates.execJump (hs : AlikeStates s s') (addr cond : Reg) :
    AlikeResults (execJump addr cond s) (execJump addr cond s') := by
  simp only [Machine.execJump, hs.readReg]
  refine hs.orRaise fun a => hs.orRaise fun c => .next ?_
  split
  · exact hs.setCell .pc _
  · exact hs

theorem AlikeStates.execPut (hs : AlikeStates s s') (v : Word) (dst : Reg) :
    AlikeResults (execPut v dst s) (execPut v dst s') := hs.orRaise_next (hs.putWrite .put dst v)

theorem AlikeStates.execPush (hs : AlikeStates s s') (src : Reg) : AlikeResults (execPush src s) (execPush src s') := by
  simp only [Machine.execPush, hs.cell, hs.srcRead]
  exact .ite (hs.raise _) (hs.orRaise fun v => .ite (hs.raise _) (.ite (hs.raise _)
    (hs.orRaise_checks (hs.store16 _ v) fun _ _ ht => .next (ht.setCell .sp _))))

theorem AlikeStates.execPop (hs : AlikeStates s s') (dst : Reg) : AlikeResults (execPop dst s) (execPop dst s') := by
  have ht := hs.setCell .sp (s.cell .sp + 2#16)
  simp only [Machine.execPop, hs.cell, ht.load16]
  exact .ite (hs.raise _) (.ite (hs.raise _) (ht.orRaise fun v => ht.orRaise_next (ht.putWrite .pop dst v)))

theorem AlikeStates.execWrite (hs : AlikeStates s s') (src addr : Reg) :
    AlikeResults (execWrite src addr s) (execWrite src addr s') := by
  simp only [Machine.execWrite, hs.srcRead]
  exact hs.orRaise fun v => hs.orRaise fun a => hs.orRaise_next (hs.store16 a v)

theorem AlikeStates.execRead (hs : AlikeStates s s') (addr dst : Reg) :
    AlikeResults (execRead addr dst s) (execRead addr dst s') := by
  simp only [Machine.execRead, hs.srcRead, hs.load16]
  exact hs.orRaise fun a => hs.orRaise fun c => hs.orRaise fun v => .next (hs.setCell c v)

theorem AlikeStates.exec (hs : AlikeStates s s') (i : Instr) : AlikeResults (exec i s) (exec i s') := by
  cases i with
  | halt => exact .next (hs.setHalted true)
  | noop => exact .next hs
  | add x y => exact hs.arithmetic .add .add x y
  | sub x y => exact hs.arithmetic .sub .sub x y
  | mul x y => exact hs.arithmetic .mul .mul x y
  | copy src dst => exact hs.execCopy src dst
  | jump addr cond => exact hs.execJump addr cond
  | put value dst => exact hs.execPut value dst
  | push src => exact hs.execPush src
  | pop dst => exact hs.execPop dst
  | write src addr => exact hs.execWrite src addr
  | read addr dst => exact hs.execRead addr dst

/-! ### The step -/

theorem AlikeStates.complete (hs : AlikeStates s s') (i : Instr) : AlikeResults (complete i s) (complete i s') := by
  simp only [Machine.complete, hs.status]
  cases s.status with
  | running => exact .ite (.next hs.nextSupply) (hs.orRaise_checks hs.advance fun _ _ ht => .next ht.nextSupply)
  | faulted e => exact .next hs
  | refused n => exact .next hs

theorem AlikeResults.retire {o o' : Result} (h : AlikeResults o o') (i : Instr) : AlikeResults (retire i o) (retire i o') := by
  cases o with
  | next t =>
    obtain ⟨t', rfl, ht⟩ := h
    exact ht.complete i
  | fault f => cases h; rfl
  | refused n => cases h; rfl

theorem AlikeStates.raiseDecode (hs : AlikeStates s s') (d : DecodeStop) :
    AlikeResults (raiseDecode d s) (raiseDecode d s') := by
  cases d with
  | decodeError b => exact hs.raise (.decodeError b)
  | badRegister b => exact hs.raise (.badRegister b)
  | nonZeroReserved => rfl

theorem AlikeStates.runInstr (hs : AlikeStates s s') (m : Maps) : AlikeResults (runInstr m s) (runInstr m s') := by
  simp only [Machine.runInstr, hs.fetch]
  refine hs.orRaise fun w => ?_
  cases decode m w with
  | error d => exact hs.raiseDecode d
  | ok i => exact (hs.exec i).retire i

theorem AlikeStates.stepWith (hs : AlikeStates s s') (m : Maps) : AlikeResults (stepWith m s) (stepWith m s') := by
  simp only [Machine.stepWith, hs.status, hs.halted]
  cases s.status with
  | running => exact .ite (.next hs) (hs.runInstr m)
  | faulted e => rfl
  | refused n => rfl

end

/-- Settles O49: alike states have alike steps, stage by stage. -/
theorem outputsAreNotObservable : Obligations.OutputsAreNotObservable := by
  intro m s console history
  have halike := AlikeStates.stepWith (s := s) ⟨console, history, rfl⟩ m
  refine ⟨fun t ht => ?_, fun f hf => ?_, fun n hn => ?_⟩
  · rw [ht] at halike
    obtain ⟨t', ht', console', history', rfl⟩ := halike
    exact ⟨console', history', ht'⟩
  · rw [hf] at halike
    exact halike
  · rw [hn] at halike
    exact halike

end Sys2Proof.Machine

/-! PROOFS. The rules of 20_memory.md: where a 2-byte store puts its value, what reads it back, and what changes memory. -/

namespace Sys2Proof.Machine

/-! ### The bytes of a 2-byte store -/

section

variable {a v : Word} {s t : State} (h : store16 a v s = .ok t) (hw : Memory.wf s.mem = true)
include h hw

theorem store16_byte_low : t.byte a.toNat = loByte v := by
  rw [store16_byte h hw, if_neg (by omega), if_pos rfl]

theorem store16_byte_high : t.byte (a.toNat + 1) = hiByte v := by rw [store16_byte h hw, if_pos rfl]

theorem store16_byte_ne {b : Nat} (h0 : b ≠ a.toNat) (h1 : b ≠ a.toNat + 1) : t.byte b = s.byte b := by
  rw [store16_byte h hw, if_neg h1, if_neg h0]

end

/-- A `write` of two stored registers is the 2-byte store of R113. -/
theorem exec_write_store16 {v a : StoredReg} {s : State} (h : s.cell a ≠ 65535#16) :
    ∃ t, store16 (s.cell a) (s.cell v) s = .ok t ∧ exec (.write (.cell v) (.cell a)) s = .next t :=
  ⟨_, store16_ok h, exec_write_ok h⟩

/-- Settles O18: the two bytes of the store, put together again by the `read`. -/
theorem writeThenReadLittleEndian : Obligations.WriteThenReadLittleEndian := by
  intro s src addr addr' dst hw haddr hpc hans
  obtain ⟨t, hstore, hwrite⟩ := exec_write_store16 (v := src) haddr
  have hlow := store16_byte_low hstore hw
  have hhigh := store16_byte_high hstore hw
  refine ⟨t, hwrite, by rw [hlow, toNat_loByte], by rw [hhigh, toNat_hiByte], fun hsame => ?_⟩
  refine ⟨_, exec_read_ok (hsame ▸ haddr) hpc hans, ?_⟩
  rw [State.cell_setCell_same, hsame, hlow, hhigh, hiByte_append_loByte]

/-- Settles O20: the store leaves `pc`, so the fetch reads the two bytes stored and the two after them. -/
theorem storeSeenByFetch : Obligations.StoreSeenByFetch := by
  intro s src addr hw haddr hpc
  have htop : s.cell addr ≠ 65535#16 := by bv_omega
  obtain ⟨t, hstore, hwrite⟩ := exec_write_store16 (v := src) htop
  rw [haddr] at hstore
  have hkept : t.cell .pc = s.cell .pc := (sameApartMem_store16 [] hstore).1 .pc List.not_mem_nil
  refine ⟨t, hwrite, ?_⟩
  rw [fetch_ok (hkept ▸ hpc), hkept, store16_byte_low hstore hw, store16_byte_high hstore hw,
    store16_byte_ne hstore hw (by omega) (by omega), store16_byte_ne hstore hw (by omega) (by omega)]
  rfl

/-! ### What changes memory -/

/-- An execute phase other than a `write` or a `push` leaves every byte (R35). -/
theorem ExecNext.byte_eq {i : Instr} {s t : State} (h : ExecNext s i t) (hwrite : i.mnemonic ≠ .write)
    (hpush : i.mnemonic ≠ .push) (b : Nat) : t.byte b = s.byte b := by
  cases h with
  | write => exact absurd rfl hwrite
  | push => exact absurd rfl hpush
  | copyOut _ _ ho =>
    obtain ⟨_, _, rfl⟩ := outWrite_withOutputs ho
    rfl
  | _ => rfl

/-- A `push` records an error over memory as it was, or stores two bytes at `sp`, which is not 0 (R111). -/
theorem ExecNext.push_byte {src : Reg} {s t : State} (h : ExecNext s (.push src) t) :
    (∀ b, t.byte b = s.byte b) ∨
      ∃ c u, src = .cell c ∧ s.cell .sp ≠ 0#16 ∧ store16 (s.cell .sp) (s.cell c) s = .ok u ∧ ∀ b, t.byte b = u.byte b := by
  cases h with
  | raised => exact .inl fun _ => rfl
  | push c u h0 _ hu => exact .inr ⟨c, u, rfl, h0, hu, fun _ => rfl⟩

/-- A `write` records an error over memory as it was, or stores two bytes at its address (R113). -/
theorem ExecNext.write_byte {src addr : Reg} {s t : State} (h : ExecNext s (.write src addr) t) :
    (∀ b, t.byte b = s.byte b) ∨
      ∃ c d, src = .cell c ∧ addr = .cell d ∧ store16 (s.cell d) (s.cell c) s = .ok t := by
  cases h with
  | raised => exact .inl fun _ => rfl
  | write c d _ hu => exact .inr ⟨c, d, rfl, rfl, hu⟩

/-- Settles O37: of the execute phases, only `push` and `write` store, and each stores two bytes at its address. -/
theorem memoryFrame : Obligations.MemoryFrame := by
  intro s t hw
  refine ⟨fun i hwrite hpush h => (exec_next h).byte_eq hwrite hpush, fun src h => ?_, fun src addr h => ?_⟩
  · rcases (exec_next h).push_byte with hkept | ⟨c, u, rfl, h0, hu, htu⟩
    · exact ⟨fun b _ _ => hkept b, fun _ => hkept⟩
    · refine ⟨fun b hb hb' => (htu b).trans (store16_byte_ne hu hw hb hb'), ?_⟩
      rintro (hout | hsp)
      · cases hout
      · exact absurd hsp h0
  · rcases (exec_next h).write_byte with hkept | ⟨c, d, rfl, rfl, hu⟩
    · exact ⟨fun _ _ b _ _ => hkept b, fun _ => hkept⟩
    · constructor
      · rintro _ ⟨⟩ b hb hb'
        exact store16_byte_ne hu hw hb hb'
      · rintro (hout | hout) <;> cases hout

end Sys2Proof.Machine

/-! PROOFS. The rules of 30_encoding.md, the codec: what each format's decode answers, decode and encode as inverses, and the
words that do not decode. -/

namespace Sys2Proof

/-! ### The four formats of decode -/

section

variable {m : Maps} {w : InstrWord} {i : Instr}

/-- The last test of a format with reserved bytes. -/
theorem okIf_ok {c : Prop} [Decidable c] {j : Instr} {d : DecodeStop} :
    (if c then Except.ok j else .error d) = .ok i ↔ c ∧ j = i := by
  by_cases hc : c <;> simp [hc]

theorem decodeN_ok {j : Instr} : decodeN j w = .ok i ↔ (w.b1 = 0#8 ∧ w.b2 = 0#8 ∧ w.b3 = 0#8) ∧ j = i := okIf_ok

theorem decodeRR_ok {mk : Reg → Reg → Instr} :
    decodeRR m mk w = .ok i ↔ ∃ q r, m.regOf w.b1 = some q ∧ m.regOf w.b2 = some r ∧ w.b3 = 0#8 ∧ mk q r = i := by
  unfold decodeRR
  cases m.regOf w.b1 <;> cases m.regOf w.b2 <;> simp [okIf_ok]

theorem decodeR_ok {mk : Reg → Instr} :
    decodeR m mk w = .ok i ↔ ∃ q, m.regOf w.b1 = some q ∧ (w.b2 = 0#8 ∧ w.b3 = 0#8) ∧ mk q = i := by
  unfold decodeR
  cases m.regOf w.b1 <;> simp [okIf_ok]

theorem decodeIR_ok {mk : Word → Reg → Instr} :
    decodeIR m mk w = .ok i ↔ ∃ r, m.regOf w.b3 = some r ∧ mk (w.b2 ++ w.b1) r = i := by
  unfold decodeIR
  cases m.regOf w.b3 <;> simp

/-- A mnemonic of format N other than `halt` decodes by `decodeN` (R54, R61). -/
theorem decodeOperands_format_n {k : Mnemonic} (hf : k.format = .n) (hk : k ≠ .halt) :
    ∃ j, decodeOperands m k w = decodeN j w := by
  cases k with
  | halt => exact absurd rfl hk
  | noop => exact ⟨.noop, rfl⟩
  | _ => cases hf

theorem decodeOperands_format_rr {k : Mnemonic} (hf : k.format = .rr) :
    ∃ mk, decodeOperands m k w = decodeRR m mk w := by
  cases k with
  | add | sub | mul | copy | jump | write | read => exact ⟨_, rfl⟩
  | _ => cases hf

theorem decodeOperands_format_r {k : Mnemonic} (hf : k.format = .r) : ∃ mk, decodeOperands m k w = decodeR m mk w := by
  cases k with
  | push | pop => exact ⟨_, rfl⟩
  | _ => cases hf

theorem decodeOperands_format_ir {k : Mnemonic} (hf : k.format = .ir) : ∃ mk, decodeOperands m k w = decodeIR m mk w := by
  cases k with
  | put => exact ⟨.put, rfl⟩
  | _ => cases hf

/-! ### What decodes -/

theorem decode_of_zero (h : w.b0 = 0#8) : decode m w = .ok .halt := by rw [decode, if_pos h]

/-- Decoded operands are those of the mnemonic, and `encode` writes the bytes they were read from; `halt` alone has bytes
that are not looked at. -/
theorem decodeOperands_ok {k : Mnemonic} (h : decodeOperands m k w = .ok i) :
    i.mnemonic = k ∧ (i = .halt ∨ encode m i = { w with b0 := m.opcode k }) := by
  cases k with
  | halt =>
    cases h
    exact ⟨rfl, .inl rfl⟩
  | noop =>
    obtain ⟨⟨h1, h2, h3⟩, rfl⟩ := decodeN_ok.1 h
    exact ⟨rfl, .inr (by simp [encode, h1, h2, h3])⟩
  | add | sub | mul | copy | jump | write | read =>
    obtain ⟨q, r, hq, hr, h3, rfl⟩ := decodeRR_ok.1 h
    exact ⟨rfl, .inr (by simp [encode, Maps.regId_of_regOf hq, Maps.regId_of_regOf hr, h3])⟩
  | push | pop =>
    obtain ⟨q, hq, ⟨h2, h3⟩, rfl⟩ := decodeR_ok.1 h
    exact ⟨rfl, .inr (by simp [encode, Maps.regId_of_regOf hq, h2, h3])⟩
  | put =>
    obtain ⟨r, hr, rfl⟩ := decodeIR_ok.1 h
    exact ⟨rfl, .inr (by simp [encode, Maps.regId_of_regOf hr, loByte_append, hiByte_append])⟩

/-- A word that decodes is its instruction's encoding, or is `halt` by its byte 0 (R61, R67). No constraint on the maps is
needed for this direction. -/
theorem decode_ok (h : decode m w = .ok i) :
    i = .halt ∧ (w.b0 = 0#8 ∨ w.b0 = m.opcode .halt) ∨ encode m i = w := by
  unfold decode at h
  split at h
  · rename_i h0
    cases h
    exact .inl ⟨rfl, .inl h0⟩
  cases hk : m.mnemonicOf w.b0 with
  | none => simp [hk] at h
  | some k =>
    have hb : m.opcode k = w.b0 := Maps.opcode_of_mnemonicOf hk
    rw [hk] at h
    obtain ⟨rfl, rfl | he⟩ := decodeOperands_ok h
    · exact .inl ⟨rfl, .inr hb.symm⟩
    · rw [hb] at he
      exact .inr he

end

/-! ### Decode and encode as inverses -/

theorem encode_b0 (m : Maps) (i : Instr) : (encode m i).b0 = m.opcode i.mnemonic := by cases i <;> rfl

section

variable {m : Maps} (hm : m.admissible = true)
include hm

theorem encode_halt : encode m .halt = ⟨0#8, 0#8, 0#8, 0#8⟩ := by rw [encode, Maps.opcode_halt hm]

theorem decodeOperands_encode (i : Instr) : decodeOperands m i.mnemonic (encode m i) = .ok i := by
  have hreg := Maps.regOf_regId hm
  cases i with
  | halt => rfl
  | noop => exact decodeN_ok.2 ⟨⟨rfl, rfl, rfl⟩, rfl⟩
  | add q r | sub q r | mul q r | copy q r | jump q r | write q r | read q r =>
    exact decodeRR_ok.2 ⟨q, r, hreg q, hreg r, rfl, rfl⟩
  | push q | pop q => exact decodeR_ok.2 ⟨q, hreg q, ⟨rfl, rfl⟩, rfl⟩
  | put v r => exact decodeIR_ok.2 ⟨r, hreg r, by simp only [encode, hiByte_append_loByte]⟩

theorem decode_encode (i : Instr) : decode m (encode m i) = .ok i := by
  rw [decode_of_opcode hm (encode_b0 m i).symm]
  exact decodeOperands_encode hm i

/-- Under admissible maps the only words that are not their instruction's encoding are `halt`'s, of byte 0 = 0 (R61). -/
theorem encode_of_decode {w : InstrWord} {i : Instr} (h : decode m w = .ok i) :
    encode m i = w ∨ w.b0 = 0#8 ∧ i = .halt := by
  rcases decode_ok h with ⟨hi, hb⟩ | he
  · rw [Maps.opcode_halt hm, or_self] at hb
    exact .inr ⟨hb, hi⟩
  · exact .inl he

/-- Every word of `halt` has byte 0 = 0 (R58 constraint 1). -/
theorem b0_of_decode_halt {w : InstrWord} (h : decode m w = .ok .halt) : w.b0 = 0#8 := by
  rcases encode_of_decode hm h with rfl | ⟨hb, -⟩
  · exact Maps.opcode_halt hm
  · exact hb

/-- Decode is injective on the words it accepts, but for those of byte 0 = 0 (R67). -/
theorem decode_injective {w w' : InstrWord} {i : Instr} (h : decode m w = .ok i) (h' : decode m w' = .ok i) :
    w = w' ∨ w.b0 = 0#8 ∧ w'.b0 = 0#8 := by
  by_cases hi : i = .halt
  · subst hi
    exact .inr ⟨b0_of_decode_halt hm h, b0_of_decode_halt hm h'⟩
  · have encoded {v : InstrWord} (hv : decode m v = .ok i) : encode m i = v :=
      (encode_of_decode hm hv).resolve_right fun hz => hi hz.2
    exact .inl ((encoded h).symm.trans (encoded h'))

end

/-- Settles O2: `decode_encode`, `encode_of_decode` with the zero word told apart from `halt`'s others, `decode_injective`. -/
theorem codecRoundTrip : Obligations.CodecRoundTrip := by
  intro m hm
  refine ⟨decode_encode hm, fun w i h => ?_, fun w w' i => decode_injective hm⟩
  rcases encode_of_decode hm h with he | ⟨h0, rfl⟩
  · exact .inl he
  obtain ⟨b0, b1, b2, b3⟩ := w
  obtain rfl : b0 = 0#8 := h0
  by_cases hz : b1 = 0#8 ∧ b2 = 0#8 ∧ b3 = 0#8
  · obtain ⟨rfl, rfl, rfl⟩ := hz
    exact .inl (encode_halt hm)
  · exact .inr ⟨rfl, by simpa only [not_and_or] using hz, rfl, encode_halt hm⟩

/-- Settles O8: a word that decodes to a `put` is the encoding of that `put`, whose bytes 1 and 2 are the value's. -/
theorem putImmediate : Obligations.PutImmediate := by
  have hbytes (m : Maps) (v : Word) (r : Reg) :
      (encode m (.put v r)).b1.toNat + 256 * (encode m (.put v r)).b2.toNat = v.toNat := by
    simp only [encode, toNat_loByte, toNat_hiByte]
    omega
  refine ⟨fun m w v r h => ?_, hbytes⟩
  rcases decode_ok h with ⟨hi, -⟩ | rfl
  · cases hi
  · exact (hbytes m v r).symm

/-- Settles O4, by the first test of decode. -/
theorem opcodeZeroIsHalt : Obligations.OpcodeZeroIsHalt := fun _ _ => decode_of_zero

/-- Settles O1, by evaluation of the eight words. -/
theorem specWordsDecode : Obligations.SpecWordsDecode := ⟨rfl, rfl, rfl, rfl, rfl, rfl, rfl, rfl⟩

/-- Settles O3, by evaluation of the two tables. -/
theorem defaultMapsAdmissible : Obligations.DefaultMapsAdmissible := by
  unfold Obligations.DefaultMapsAdmissible
  decide

/-! ### Words that do not decode -/

section

variable {m : Maps} {w : InstrWord}

/-- R62. Byte 0 = 0 is an opcode, that of `halt`. -/
theorem decode_unknown_opcode (hm : m.admissible = true) (h : ∀ k, m.opcode k ≠ w.b0) :
    decode m w = .error (.decodeError w.b0) := by
  have h0 : w.b0 ≠ 0#8 := fun hz => h .halt ((Maps.opcode_halt hm).trans hz.symm)
  rw [decode, if_neg h0, Maps.mnemonicOf_none.2 h]

theorem decodeRR_badRegister_first {mk : Reg → Reg → Instr} (h : ∀ r, m.regId r ≠ w.b1) :
    decodeRR m mk w = .error (.badRegister w.b1) := by
  rw [decodeRR, Maps.regOf_none.2 h]

theorem decodeRR_badRegister_second {mk : Reg → Reg → Instr} {q : Reg} (hq : m.regOf w.b1 = some q)
    (h : ∀ r, m.regId r ≠ w.b2) : decodeRR m mk w = .error (.badRegister w.b2) := by
  simp only [decodeRR, hq, Maps.regOf_none.2 h]

theorem decodeR_badRegister {mk : Reg → Instr} (h : ∀ r, m.regId r ≠ w.b1) :
    decodeR m mk w = .error (.badRegister w.b1) := by
  rw [decodeR, Maps.regOf_none.2 h]

theorem decodeIR_badRegister {mk : Word → Reg → Instr} (h : ∀ r, m.regId r ≠ w.b3) :
    decodeIR m mk w = .error (.badRegister w.b3) := by
  rw [decodeIR, Maps.regOf_none.2 h]

theorem decodeN_reserved {j : Instr} (h : w.b1 ≠ 0#8 ∨ w.b2 ≠ 0#8 ∨ w.b3 ≠ 0#8) :
    decodeN j w = .error .nonZeroReserved := by
  rw [decodeN, if_neg (by simpa only [not_and_or] using h)]

theorem decodeRR_reserved {mk : Reg → Reg → Instr} {q r : Reg} (hq : m.regOf w.b1 = some q) (hr : m.regOf w.b2 = some r)
    (h : w.b3 ≠ 0#8) : decodeRR m mk w = .error .nonZeroReserved := by
  simp only [decodeRR, hq, hr, if_neg h]

theorem decodeR_reserved {mk : Reg → Instr} {q : Reg} (hq : m.regOf w.b1 = some q) (h : w.b2 ≠ 0#8 ∨ w.b3 ≠ 0#8) :
    decodeR m mk w = .error .nonZeroReserved := by
  simp only [decodeR, hq, if_neg (not_and_or.2 h)]

end

/-- Settles O5: the step raises the decode error, one of the document's own. -/
theorem unknownOpcodeIsFatal : Obligations.UnknownOpcodeIsFatal := fun _ hm =>
  ⟨fun _ => decode_unknown_opcode hm, fun _ hact hpc h => Machine.stepWith_decode_error hact hpc (decode_unknown_opcode hm h)⟩

/-- Settles O6, format by format. -/
theorem unknownRegisterByteFaults : Obligations.UnknownRegisterByteFaults := by
  intro m hm w k hk
  rw [decode_of_opcode hm hk]
  refine ⟨?_, fun hf q hq h => ?_, fun hf h => ?_, fun s b => Machine.stepWith_decode_error⟩
  · rintro (hf | hf) h
    · obtain ⟨mk, hmk⟩ := decodeOperands_format_rr (m := m) (w := w) hf
      exact hmk.trans (decodeRR_badRegister_first h)
    · obtain ⟨mk, hmk⟩ := decodeOperands_format_r (m := m) (w := w) hf
      exact hmk.trans (decodeR_badRegister h)
  · obtain ⟨mk, hmk⟩ := decodeOperands_format_rr (m := m) (w := w) hf
    exact hmk.trans (decodeRR_badRegister_second (hq ▸ Maps.regOf_regId hm q) h)
  · obtain ⟨mk, hmk⟩ := decodeOperands_format_ir (m := m) (w := w) hf
    exact hmk.trans (decodeIR_badRegister h)

/-- Settles O7, format by format. -/
theorem reservedBytesAreRefused : Obligations.ReservedBytesAreRefused := by
  intro m hm w k hk hne
  rw [decode_of_opcode hm hk]
  refine ⟨fun hf h => ?_, fun hf q r hq hr h => ?_, fun hf q hq h => ?_, fun s => Machine.stepWith_decode_error⟩
  · obtain ⟨j, hj⟩ := decodeOperands_format_n (m := m) (w := w) hf hne
    exact hj.trans (decodeN_reserved h)
  · obtain ⟨mk, hmk⟩ := decodeOperands_format_rr (m := m) (w := w) hf
    exact hmk.trans (decodeRR_reserved (hq ▸ Maps.regOf_regId hm q) (hr ▸ Maps.regOf_regId hm r) h)
  · obtain ⟨mk, hmk⟩ := decodeOperands_format_r (m := m) (w := w) hf
    exact hmk.trans (decodeR_reserved (hq ▸ Maps.regOf_regId hm q) h)

end Sys2Proof

/-! PROOFS. The rules of 30_encoding.md, the text form: parsing what `print` writes, the lines of a printed program, and what
pass 2 of the assembler keeps. -/

namespace Sys2Proof.Machine

/-! ### Parsing the printed form -/

theorem parseR_regName (mk : Reg → Instr) (r : Reg) (rest : List Token) :
    parseR mk (regName r :: rest) = .ok (mk r) := by
  simp only [parseR, takeReg, regOfToken_regName]

theorem parseRR_regName (mk : Reg → Reg → Instr) (q r : Reg) (rest : List Token) :
    parseRR mk (regName q :: regName r :: rest) = .ok (mk q r) := by
  simp only [parseRR, takeReg, regOfToken_regName, parseR_regName]

theorem parseUR_decimal (mk : Word → Reg → Instr) (v : Word) (r : Reg) (rest : List Token) :
    parseUR mk (decimal v.toNat :: regName r :: rest) = .ok (mk v r) := by
  simp only [parseUR, takeLiteral, literalOfToken_decimal, parseR_regName]

theorem parseOperands_operandTokens (i : Instr) : parseOperands i.mnemonic (operandTokens i) = .ok i := by
  cases i with
  | halt | noop => rfl
  | add | sub | mul | copy | jump | write | read => exact parseRR_regName _ _ _ []
  | put v dst => exact parseUR_decimal .put v dst []
  | push | pop => exact parseR_regName _ _ []

/-- Settles O53: the tokens of the printed form name the mnemonic and, in its grammar, the operands. -/
theorem parsePrintRoundTrip : Obligations.ParsePrintRoundTrip := by
  intro i
  simp only [parse, tokens_print, parseTokens, mnemonicOfToken_mnemonicName, parseOperands_operandTokens]

/-! ### The lines of a printed program -/

theorem mem_joinTokens {c : Char} {ts : List Token} (h : c ∈ joinTokens ts) : c = ' ' ∨ ∃ t ∈ ts, c ∈ t := by
  fun_induction joinTokens ts with
  | case1 => cases h
  | case2 t => exact .inr ⟨t, List.mem_cons_self, h⟩
  | case3 t u rest ih =>
    rcases List.mem_append.1 h with ht | hr
    · exact .inr ⟨t, List.mem_cons_self, ht⟩
    rcases List.mem_cons.1 hr with rfl | hr
    · exact .inl rfl
    · exact (ih hr).imp_right fun ⟨v, hv, hc⟩ => ⟨v, List.mem_cons_of_mem _ hv, hc⟩

/-- The printed form stays on one line (R76, R77). -/
theorem print_ne_lineFeed (i : Instr) : ∀ c ∈ print i, (c.toNat == 10) = false := by
  intro c hc
  rcases mem_joinTokens hc with rfl | ⟨t, ht, hct⟩
  · rfl
  · have := isPlain_range ((plainToken_print i t ht).2 c hct)
    simp only [beq_eq_false_iff_ne]
    omega

/-- Pieces without a separator, joined by it, are the pieces again. -/
theorem splitWhere_intercalate {p : Char → Bool} {sep : Char} (hsep : p sep = true) {ts : List Text} (hne : ts ≠ [])
    (h : ∀ t ∈ ts, ∀ c ∈ t, p c = false) : splitWhere p (List.intercalate [sep] ts) = ts := by
  induction ts with
  | nil => exact absurd rfl hne
  | cons t rest ih =>
    have ht := h t List.mem_cons_self
    cases rest with
    | nil => simp [List.intercalate, splitWhere_none ht]
    | cons u us =>
      have hcut : List.intercalate [sep] (t :: u :: us) = t ++ sep :: List.intercalate [sep] (u :: us) := by
        simp [List.intercalate]
      rw [hcut, splitWhere_sep ht hsep, ih (List.cons_ne_nil u us) fun v hv => h v (List.mem_cons_of_mem _ hv)]

theorem lines_printed {is : List Instr} (hne : is ≠ []) : lines (List.intercalate ['\n'] (is.map print)) = is.map print := by
  refine splitWhere_intercalate rfl (by simpa using hne) fun t ht => ?_
  obtain ⟨i, -, rfl⟩ := List.mem_map.1 ht
  exact print_ne_lineFeed i

/-! ### Assembling a printed program -/

theorem lineKind_print (i : Instr) : lineKind (print i) = .instruction := by
  rw [lineKind, tokens_print]
  cases i <;> rfl

theorem assembleLine_print (labels : Labels) (i : Instr) : assembleLine labels (print i) = .ok i := by
  simp only [assembleLine, tokens_print, replaceLabels_plain labels (plainToken_print i)]
  exact parsePrintRoundTrip i

/-- Pass 2 over printed lines appends their instructions, whatever labels pass 1 has bound. -/
theorem emit_printed (labels : Labels) (is : List Instr) (p : Program) :
    ∃ q, emit labels p (is.map print) = .ok q ∧ q.instrs = p.instrs ++ is := by
  induction is generalizing p with
  | nil => exact ⟨p, rfl, (List.append_nil _).symm⟩
  | cons i rest ih =>
    simp only [List.map_cons, emit, lineKind_print, assembleLine_print]
    obtain ⟨q, hq, hi⟩ := ih _
    exact ⟨q, hq, by rw [hi, List.append_assoc]; rfl⟩

/-- Settles O55, by `emit_printed`; the empty list prints as one blank line. -/
theorem assemblePrintedProgram : Obligations.AssemblePrintedProgram := by
  intro is
  by_cases hne : is = []
  · subst hne
    exact ⟨_, rfl, rfl⟩
  · simp only [assemble, lines_printed hne]
    exact emit_printed _ is _

/-! ### What pass 2 keeps -/

/-- The addresses of the rendering aid are 0, 4, 8 and so on, one for each instruction (R78, R80). -/
def Program.Addressed (p : Program) : Prop :=
  p.lineOf.map Prod.fst = (List.range p.instrs.length).map (fun k => 4 * k)

/-- Everything pass 2 can do with a line it accepts: keep the line and, for an instruction line, append the instruction at the
next address (R80). -/
theorem emit_cons_ok {labels : Labels} {p q : Program} {line : Text} {rest : List Text}
    (h : emit labels p (line :: rest) = .ok q) :
    ∃ p', emit labels p' rest = .ok q ∧ p'.source = p.source ++ [line] ∧
      (p'.instrs = p.instrs ∧ p'.lineOf = p.lineOf ∨
       ∃ i, p'.instrs = p.instrs ++ [i] ∧ p'.lineOf = p.lineOf ++ [(4 * p.instrs.length, p.source.length)]) := by
  simp only [emit] at h
  cases hk : lineKind line with
  | blank | comment =>
    rw [hk] at h
    exact ⟨_, h, rfl, .inl ⟨rfl, rfl⟩⟩
  | instruction =>
    rw [hk] at h
    cases ha : assembleLine labels line with
    | error e => simp [ha] at h
    | ok i =>
      rw [ha] at h
      exact ⟨_, h, rfl, .inr ⟨i, rfl, rfl⟩⟩

theorem Program.Addressed.append {p p' : Program} (hp : p.Addressed) {i : Instr} {n : Nat}
    (hi : p'.instrs = p.instrs ++ [i]) (hl : p'.lineOf = p.lineOf ++ [(4 * p.instrs.length, n)]) : p'.Addressed := by
  simp [Program.Addressed, hi, hl, List.range_succ, show p.lineOf.map Prod.fst = _ from hp]

theorem emit_addressed {labels : Labels} {ls : List Text} {p q : Program} (h : emit labels p ls = .ok q)
    (hp : p.Addressed) : q.Addressed ∧ q.source = p.source ++ ls := by
  induction ls generalizing p with
  | nil =>
    cases h
    exact ⟨hp, (List.append_nil _).symm⟩
  | cons line rest ih =>
    obtain ⟨p', hq, hs, hcase⟩ := emit_cons_ok h
    have hp' : p'.Addressed := by
      rcases hcase with ⟨hi, hl⟩ | ⟨i, hi, hl⟩
      · rw [Program.Addressed, hi, hl]
        exact hp
      · exact hp.append hi hl
    obtain ⟨hqa, hqs⟩ := ih hq hp'
    exact ⟨hqa, by rw [hqs, hs, List.append_assoc]; rfl⟩

/-- Settles O54: pass 2 starts with no instruction and no line kept. -/
theorem assembledAddresses : Obligations.AssembledAddresses := fun _ _ h => emit_addressed h rfl

end Sys2Proof.Machine

/-! PROOFS. The rules of 40_step.md: the ALU and the device multiplexer, stage 4 of a step, where a step stops, and the
host's view of it. -/

namespace Sys2Proof.Machine

/-! ### The ALU -/

theorem toNat_ofNat_word {n : Nat} (h : n ≤ 65535) : (BitVec.ofNat 16 n).toNat = n :=
  by
  rw [BitVec.toNat_ofNat, Nat.mod_eq_of_lt (by omega)]

/-- Settles O17, operation by operation: a result in range is not cut down to 16 bits. -/
theorem aluIsChecked : Obligations.AluIsChecked := by
  intro a b
  refine ⟨alu_add_overflow, fun h => ⟨_, alu_add_ok h, toNat_ofNat_word h⟩,
    alu_sub_underflow, fun h => ⟨_, alu_sub_ok h, ?_⟩,
    alu_mul_overflow, fun h => ⟨_, alu_mul_ok h, toNat_ofNat_word h⟩⟩
  have := a.isLt
  rw [toNat_ofNat_word (by omega), Nat.sub_add_cancel h]

/-! ### The device multiplexer -/

section

variable {k : Slot} {v : Word} {s : State}

theorem deviceWrite_present (h : s.devices.present k = true) :
    deviceWrite k v s = .ok (recordEvent { slot := k, value := v } s) := if_pos h

theorem deviceWrite_absent (h : s.devices.present k = false) : deviceWrite k v s = .error (.noDevice k) := by
  rw [deviceWrite, h, if_neg Bool.false_ne_true]

theorem outWrite_slot0 (h : s.cell .dvc = 0#16) : outWrite v s = deviceWrite .slot0 v s := if_pos h

theorem outWrite_slot1 (h : s.cell .dvc = 1#16) : outWrite v s = deviceWrite .slot1 v s := by
  rw [outWrite, h, if_neg (by decide), if_pos rfl]

theorem outWrite_console (h : 2 ≤ (s.cell .dvc).toNat) : outWrite v s = .ok (consoleAppend v s) := by
  rw [outWrite, if_neg (by bv_omega), if_neg (by bv_omega)]

end

/-- Settles O21, sink by sink. -/
theorem deviceMultiplexer : Obligations.DeviceMultiplexer := fun _ _ =>
  ⟨fun h hd => (outWrite_slot0 h).trans (deviceWrite_present hd),
   fun h hd => (outWrite_slot0 h).trans (deviceWrite_absent hd),
   fun h hd => (outWrite_slot1 h).trans (deviceWrite_present hd),
   fun h hd => (outWrite_slot1 h).trans (deviceWrite_absent hd),
   outWrite_console⟩

/-! ### Stage 4 of a step -/

section

variable {i : Instr} {t : State}

/-- An error recorded in the execute phase ends the step there (R93). -/
theorem complete_of_not_running (h : t.status ≠ .running) : complete i t = .next t := by
  unfold complete
  split
  · exact absurd ‹_› h
  · rfl
  · rfl

theorem complete_halt (h : t.status = .running) : complete .halt t = .next (nextSupply t) := by
  simp only [complete, h, Instr.mnemonic, if_true]

theorem Instr.mnemonic_ne_halt (h : i ≠ .halt) : i.mnemonic ≠ .halt := by
  cases i with
  | halt => exact absurd rfl h
  | _ => exact nofun

/-- Every instruction but `halt` goes on to the advance (R91). -/
theorem complete_advances (h : t.status = .running) (hi : i ≠ .halt) :
    complete i t = orRaise t (advance t) fun u => .next (nextSupply u) := by
  simp only [complete, h, if_neg (Instr.mnemonic_ne_halt hi)]

theorem complete_advance_ok (h : t.status = .running) (hi : i ≠ .halt) (hp : (t.cell .pc).toNat ≤ 65531) :
    complete i t = .next (nextSupply (t.setCell .pc (t.cell .pc + 4#16))) := by
  rw [complete_advances h hi, advance_ok hp, orRaise_ok]

theorem complete_advance_overflow (h : t.status = .running) (hi : i ≠ .halt) (hp : 65531 < (t.cell .pc).toNat) :
    complete i t = .fault (.pcOverflow (t.cell .pc)) := by
  rw [complete_advances h hi, advance_overflow hp, orRaise_error]
  rfl

/-- The one fault of stage 4 is that of the advance (R91). -/
theorem complete_fault {f : Fault} (h : complete i t = .fault f) :
    i ≠ .halt ∧ 65531 < (t.cell .pc).toNat ∧ f = .pcOverflow (t.cell .pc) := by
  by_cases hs : t.status = .running
  · by_cases hi : i = .halt
    · subst hi
      rw [complete_halt hs] at h
      cases h
    rcases Nat.lt_or_ge 65531 (t.cell .pc).toNat with hp | hp
    · rw [complete_advance_overflow hs hi hp] at h
      cases h
      exact ⟨hi, hp, rfl⟩
    · rw [complete_advance_ok hs hi hp] at h
      cases h
  · rw [complete_of_not_running hs] at h
    cases h

/-- Stage 4 leaves the status to the execute phase. -/
theorem complete_status {u : State} (h : complete i u = .next t) : t.status = u.status := by
  obtain ⟨v, -, -, -, hstatus, -⟩ := complete_sameMachine h
  rw [hstatus, State.status_setCell]

end

theorem stepWith_of_exec_next {m : Maps} {s t : State} {i : Instr} (hd : s.decodesTo m i) (h : exec i s = .next t) :
    stepWith m s = complete i t := by
  rw [stepWith_decodesTo hd, h, retire]

/-- Settles O9: the step of a word that decodes is the execute phase and then stage 4, case by case. -/
theorem stepRunsDecodedInstruction : Obligations.StepRunsDecodedInstruction := by
  refine ⟨fun _ => rfl, fun m s i hd => ⟨fun f hf => ?_, fun t ht => ?_⟩⟩
  · rw [stepWith_decodesTo hd, hf, retire]
  rw [stepWith_of_exec_next hd ht]
  refine ⟨complete_of_not_running, ?_, complete_advance_ok, complete_advance_overflow⟩
  rintro hs rfl
  exact complete_halt hs

/-! ### A placed encoding -/

theorem placeWord_inside {w : InstrWord} {s : State} (hp : (s.cell .pc).toNat ≤ 65532) :
    placeWord w s = s.setMem (Memory.writeBytes s.mem (s.cell .pc).toNat w.bytes) :=
  if_pos (inRange_iff.2 (by omega))

/-- A byte of a run stored inside memory reads back at its place (R132). -/
theorem Memory.read_writeBytes_add {a k : Nat} {m : Memory} {bytes : List Byte} (h : Memory.wf m = true)
    (ha : a + bytes.length ≤ Config.memorySize) (hk : k < bytes.length) :
    Memory.read (Memory.writeBytes m a bytes) (a + k) = bytes[k] := by
  rw [Memory.read_writeBytes bytes h ha, dif_pos (by omega)]
  simp only [Nat.add_sub_cancel_left]

/-- A word placed inside memory is the one at `pc` (R37). -/
theorem wordAtPc_placeWord {w : InstrWord} {s : State} (hw : Memory.wf s.mem = true)
    (hp : (s.cell .pc).toNat ≤ 65532) : (placeWord w s).wordAtPc = w := by
  have hfits : (s.cell .pc).toNat + w.bytes.length ≤ Config.memorySize := Nat.add_le_add_right hp 4
  have hbyte (k : Nat) (hk : k < 4) : (placeWord w s).byte ((s.cell .pc).toNat + k) = w.bytes[k]'hk := by
    rw [placeWord_inside hp]
    exact Memory.read_writeBytes_add hw hfits hk
  have hpc : (placeWord w s).cell .pc = s.cell .pc := by rw [placeWord_inside hp, State.cell_setMem]
  rw [State.wordAtPc, hpc, hbyte 1 (by decide), hbyte 2 (by decide), hbyte 3 (by decide)]
  exact congrArg (fun b => InstrWord.mk b w.b1 w.b2 w.b3) (hbyte 0 (by decide))

/-- Settles O14: the word placed is the one at `pc`, and decode undoes encode. -/
theorem placedEncodingRuns : Obligations.PlacedEncodingRuns := by
  intro m s i hm hw hact hp
  have hplaced : (placeWord (encode m i) s).decodesTo m i := by
    refine ⟨?_, ?_, by rw [wordAtPc_placeWord hw hp, decode_encode hm]⟩
    · rw [placeWord_inside hp]
      exact hact
    · rw [placeWord_inside hp]
      exact hp
  exact ⟨hplaced, stepWith_decodesTo hplaced⟩

/-! ### Where a step stops -/

theorem raiseDecode_fault {d : DecodeStop} {s : State} {f : Fault} (h : raiseDecode d s = .fault f) :
    ∃ b, d = .badRegister b ∧ f = .badRegister b := by
  cases d with
  | decodeError b => cases h
  | badRegister b =>
    cases h
    exact ⟨b, rfl, rfl⟩
  | nonZeroReserved => cases h

/-- A taken `jump` leaves room for the advance (R109, R91). -/
theorem jumpTarget_le (a : Word) : (jumpTarget a).toNat ≤ 65531 := by
  have hlt := a.isLt
  by_cases h : a.toNat < 4
  · rw [jumpTarget_small h]
    decide
  · have := jumpTarget_large (a := a) (by omega)
    omega

/-- From an aligned `pc` the advance runs out only where execute has left `pc` at 65532. -/
theorem ExecNext.pc_of_overflow {i : Instr} {s t : State} (h : ExecNext s i t) (hs : (s.cell .pc).toNat ≤ 65532)
    (ht : 65531 < (t.cell .pc).toNat) : t.cell .pc = s.cell .pc ∧ s.cell .pc = 65532#16 := by
  rcases h.pc_cases with hpc | ⟨a, c, -, -, hpc⟩
  · rw [hpc] at ht
    exact ⟨hpc, BitVec.eq_of_toNat_eq (Nat.le_antisymm hs ht)⟩
  · rw [hpc] at ht
    exact absurd ht (Nat.not_lt.2 (jumpTarget_le _))

/-- With the invariant a fetch lies inside memory (R21, R89). -/
theorem State.Inv.pc_le {s : State} (h : s.Inv) : (s.cell .pc).toNat ≤ 65532 := by
  have hlt := (s.cell .pc).isLt
  have haligned := h.2
  omega

/-- Settles O48, by the stages of R87: the fetch succeeds, then decode, execute or the advance stops the step. -/
theorem stepFaultReasons : Obligations.StepFaultReasons := by
  intro m s f hinv hact h
  cases hd : decode m s.wordAtPc with
  | error d =>
    rw [stepWith_decode_error hact hinv.pc_le hd] at h
    obtain ⟨b, rfl, rfl⟩ := raiseDecode_fault h
    exact .inl ⟨b, rfl, rfl⟩
  | ok i =>
    refine .inr ⟨i, rfl, ?_⟩
    have hdec : s.decodesTo m i := ⟨hact, hinv.pc_le, hd⟩
    cases he : exec i s with
    | next t =>
      rw [stepWith_of_exec_next hdec he] at h
      obtain ⟨hi, hp, rfl⟩ := complete_fault h
      obtain ⟨hkept, htop⟩ := (exec_next he).pc_of_overflow hinv.pc_le hp
      exact .inr ⟨by rw [hkept, htop], htop, hi⟩
    | fault g =>
      rw [stepWith_decodesTo hdec, he] at h
      exact .inl h
    | refused n =>
      rw [stepWith_decodesTo hdec, he] at h
      cases h

/-! ### Recorded errors -/

/-- An execute phase records an error over the state as it was, but for `pop`, which has raised `sp` by then (R93, C4); an
instruction's own effect keeps the status. -/
theorem ExecNext.of_faulted {i : Instr} {s t : State} {e : Error} (h : ExecNext s i t) (hs : s.errorFree)
    (ht : t.status = .faulted e) :
    e.fault? = none ∧ (t = s.setStatus (.faulted e) ∨
      ∃ dst, i = .pop dst ∧ t = (s.setCell .sp (s.cell .sp + 2#16)).setStatus (.faulted e)) := by
  have hkept : t.status ≠ s.status := by
    rw [ht, show s.status = .running from hs]
    exact nofun
  cases h with
  | raised _ e' he =>
    cases ht
    exact ⟨he, .inl rfl⟩
  | popRaised dst =>
    cases ht
    exact ⟨rfl, .inr ⟨dst, rfl, rfl⟩⟩
  | copyOut _ _ ho =>
    obtain ⟨_, _, rfl⟩ := outWrite_withOutputs ho
    exact absurd rfl hkept
  | push _ _ _ _ hu | write _ _ _ hu =>
    obtain ⟨-, rfl⟩ := store16_cases hu
    exact absurd rfl hkept
  | _ => exact absurd rfl hkept

/-- A step that records an error was stopped in decode, or in the execute phase, whose state it keeps (R93). -/
theorem stepWith_faulted {m : Maps} {s t : State} {e : Error} (h : stepWith m s = .next t) (ht : t.status = .faulted e) :
    e.fault? = none ∧ (t = s.setStatus (.faulted e) ∨
      ∃ dst, decode m s.wordAtPc = .ok (.pop dst) ∧
        t = (s.setCell .sp (s.cell .sp + 2#16)).setStatus (.faulted e)) := by
  obtain ⟨hfree, ⟨-, rfl⟩ | ⟨-, -, b, -, rfl⟩ | ⟨i, u, ⟨-, -, hd⟩, hu, hc⟩⟩ := stepWith_next h
  · rw [show t.status = .running from hfree] at ht
    cases ht
  · cases ht
    exact ⟨rfl, .inl rfl⟩
  · have hus : u.status = .faulted e := (complete_status hc).symm.trans ht
    rw [complete_of_not_running (by simp [hus])] at hc
    cases hc
    obtain ⟨he, heq | ⟨dst, rfl, heq⟩⟩ := hu.of_faulted hfree ht
    · exact ⟨he, .inl heq⟩
    · exact ⟨he, .inr ⟨dst, hd, heq⟩⟩

/-- Settles O12: neither kind of recorded error has written `pc`. -/
theorem errorsArePrecise : Obligations.ErrorsArePrecise := by
  intro m s t e _ h ht
  obtain ⟨he, hstate⟩ := stepWith_faulted h ht
  refine ⟨he, ?_, hstate⟩
  rcases hstate with rfl | ⟨_, -, rfl⟩
  · rfl
  · exact State.cell_setCell_ne s (c := .sp) _ (by decide)

/-! ### The host's view -/

theorem stepWith_halted {m : Maps} {s : State} (h : s.errorFree) (hh : s.halted = true) : stepWith m s = .next s := by
  simp only [stepWith, show s.status = .running from h, hh, if_true]

section

variable {t : State}

theorem resultOf_ok {b : Bool} : resultOf t = .ok b ↔ t.errorFree ∧ t.halted = b := by
  unfold resultOf State.errorFree
  cases t.status <;> simp

theorem resultOf_error {e : Error} : resultOf t = .error e ↔ t.status = .faulted e := by
  unfold resultOf
  cases t.status <;> simp

theorem resultOf_refused {n : Refusal} : resultOf t = .refused n ↔ t.status = .refused n := by
  unfold resultOf
  cases t.status <;> simp

end

/-- Settles O10: the host's supply leaves the core halted and without a recorded error. -/
theorem haltedStepIsNoOp : Obligations.HaltedStepIsNoOp := by
  intro m d s hfree hh
  refine ⟨stepWith_halted hfree hh, ?_⟩
  rw [hostStep, stepWith_halted (s := supply d s) hfree hh, report, (resultOf_ok (t := supply d s)).2 ⟨hfree, hh⟩]

/-- A step that answers a state records no refusal in it (R30, R117). -/
theorem stepWith_next_ne_refused {m : Maps} {s t : State} (h : stepWith m s = .next t) (n : Refusal) :
    t.status ≠ .refused n := by
  obtain ⟨hfree, ⟨-, rfl⟩ | ⟨-, -, b, -, rfl⟩ | ⟨i, u, -, hu, hc⟩⟩ := stepWith_next h
  · rw [show t.status = .running from hfree]
    exact nofun
  · rw [State.status_setStatus]
    exact nofun
  · rw [complete_status hc]
    rcases hu.status_cases with hus | ⟨e, -, hus⟩
    · rw [hus, show s.status = .running from hfree]
      exact nofun
    · rw [hus]
      exact nofun

/-- A step that stops with a fault was taken from a state without a recorded error, or repeats the error recorded (R30). -/
theorem stepWith_fault {m : Maps} {s : State} {f : Fault} (h : stepWith m s = .fault f) :
    s.errorFree ∨ s.status = .faulted f.error := by
  unfold stepWith at h
  split at h
  · exact .inl ‹_›
  · cases h
    exact .inr ‹_›
  · cases h

/-- The error of a fault is what the state kept after it records (R30, D16). -/
theorem status_keptAfter {m : Maps} {s : State} {f : Fault} (h : stepWith m s = .fault f) :
    (keptAfter f s).status = .faulted f.error := by
  rcases stepWith_fault h with hs | hs
  · simp only [keptAfter, show s.status = .running from hs, State.status_setStatus]
  · simp only [keptAfter, hs]

/-- Settles O13, outcome by outcome of the step that the host's call takes. -/
theorem hostStepRecordsResult : Obligations.HostStepRecordsResult := by
  intro m d s
  unfold hostStep
  cases h : stepWith m (supply d s) with
  | next t =>
    exact ⟨fun b => resultOf_ok.1, fun e => resultOf_error.1,
      fun n hn => absurd (resultOf_refused.1 hn) (stepWith_next_ne_refused h n)⟩
  | fault f =>
    refine ⟨nofun, ?_, nofun⟩
    rintro _ ⟨⟩
    exact status_keptAfter h
  | refused r =>
    refine ⟨nofun, nofun, ?_⟩
    rintro _ ⟨⟩
    rfl

end Sys2Proof.Machine

/-! PROOFS. The rules of 41_system.md: `halt` and `noop`. -/

namespace Sys2Proof.Machine

/-- A byte 0 of 0 at `pc` is fetched and decoded as `halt`, whatever the other bytes and the maps (R61). -/
theorem State.decodesTo_halt {m : Maps} {s : State} (h : s.active) (hp : (s.cell .pc).toNat ≤ 65532)
    (hb : s.byte (s.cell .pc).toNat = 0#8) : s.decodesTo m .halt :=
  ⟨h, hp, decode_of_zero (w := s.wordAtPc) hb⟩

theorem exec_halt (s : State) : exec .halt s = .next (s.setHalted true) := rfl

theorem exec_noop (s : State) : exec .noop s = .next s := rfl

/-- Settles O22: stage 4 advances nothing after `halt`, so only the host's supply follows the execute phase. -/
theorem haltRule : Obligations.HaltRule := by
  refine ⟨exec_halt, fun m s hact hp hb => ⟨nextSupply (s.setHalted true), ?_, sameMachine_nextSupply _⟩⟩
  have hfree : s.errorFree := hact.1
  rw [stepWith_of_exec_next (State.decodesTo_halt hact hp hb) (exec_halt s)]
  exact complete_halt hfree

/-- Settles O23: the advance of stage 4 acts on the state that execute left as it was. -/
theorem noopRule : Obligations.NoopRule := by
  refine ⟨exec_noop, fun m s hd hp => ⟨nextSupply (s.setCell .pc (s.cell .pc + 4#16)), ?_, sameMachine_nextSupply _⟩⟩
  have ⟨hact, _⟩ := hd
  have hfree : s.errorFree := hact.1
  rw [stepWith_of_exec_next hd (exec_noop s)]
  exact complete_advance_ok hfree nofun hp

end Sys2Proof.Machine

/-! PROOFS. The rules of 42_arithmetic.md: `add`, `sub` and `mul`, which differ in the ALU's operation alone. -/

namespace Sys2Proof.Machine

theorem exec_add (x y : Reg) (s : State) : exec (.add x y) s = arithmetic .add .add x y s := rfl

theorem exec_sub (x y : Reg) (s : State) : exec (.sub x y) s = arithmetic .sub .sub x y s := rfl

theorem exec_mul (x y : Reg) (s : State) : exec (.mul x y) s = arithmetic .mul .mul x y s := rfl

section

variable {op : Mnemonic} {f : AluOp} {x y : Reg} {a b : StoredReg} {s : State}

/-- An arithmetic instruction reads `x` first, so `out` there is its error whatever `y` is (R94, D12). -/
theorem arithmetic_x_out (hx : x = .out) :
    arithmetic op f x y s = .next (s.setStatus (.faulted (.forbidden op .x .out))) := by
  subst hx
  rfl

theorem arithmetic_y_out (hx : x ≠ .out) (hy : y = .out) :
    arithmetic op f x y s = .next (s.setStatus (.faulted (.forbidden op .y .out))) := by
  subst hy
  cases x with
  | out => exact absurd rfl hx
  | cell a => rfl

theorem arithmetic_cell (op : Mnemonic) (f : AluOp) (a b : StoredReg) (s : State) :
    arithmetic op f (.cell a) (.cell b) s =
      orRaise s (alu f (s.cell a) (s.cell b)) fun r => .next (s.setCell .ans r) := rfl

/-- An error of the ALU is recorded and nothing else changes (R93, R96). -/
theorem arithmetic_of_alu_error {e : Error} (h : alu f (s.cell a) (s.cell b) = .error e) :
    arithmetic op f (.cell a) (.cell b) s = .next (s.setStatus (.faulted e)) := by
  rw [arithmetic_cell, h, orRaise_error]
  exact raise_next.2 ⟨alu_error_fault h, rfl⟩

/-- What is known of the ALU's result is known of `ans`, and nothing else changes (R105 to R107). -/
theorem arithmetic_of_alu_ok {P : Word → Prop} (h : ∃ r, alu f (s.cell a) (s.cell b) = .ok r ∧ P r) :
    ∃ t, arithmetic op f (.cell a) (.cell b) s = .next t ∧ P (t.cell .ans) ∧ sameBut [.ans] s t := by
  obtain ⟨r, hr, hP⟩ := h
  refine ⟨s.setCell .ans r, ?_, ?_, sameBut_setCell s r List.mem_cons_self⟩
  · rw [arithmetic_cell, hr, orRaise_ok]
  · rwa [State.cell_setCell_same]

end

/-- Settles O24: beyond the operand checks, `add` does what the ALU's sum does. -/
theorem addRule : Obligations.AddRule := by
  intro x y s
  rw [exec_add]
  refine ⟨arithmetic_x_out, arithmetic_y_out, ?_⟩
  rintro a b rfl rfl
  obtain ⟨hover, hsum, -⟩ := aluIsChecked (s.cell a) (s.cell b)
  exact ⟨fun h => arithmetic_of_alu_error (hover h), fun h => arithmetic_of_alu_ok (hsum h)⟩

/-- Settles O25: beyond the operand checks, `sub` does what the ALU's difference does, `x` being the minuend. -/
theorem subRule : Obligations.SubRule := by
  intro x y s
  rw [exec_sub]
  refine ⟨arithmetic_x_out, arithmetic_y_out, ?_⟩
  rintro a b rfl rfl
  obtain ⟨-, -, hunder, hdiff, -⟩ := aluIsChecked (s.cell a) (s.cell b)
  exact ⟨fun h => arithmetic_of_alu_error (hunder h), fun h => arithmetic_of_alu_ok (hdiff h)⟩

/-- Settles O26: beyond the operand checks, `mul` does what the ALU's product does. -/
theorem mulRule : Obligations.MulRule := by
  intro x y s
  rw [exec_mul]
  refine ⟨arithmetic_x_out, arithmetic_y_out, ?_⟩
  rintro a b rfl rfl
  obtain ⟨-, -, -, -, hover, hprod⟩ := aluIsChecked (s.cell a) (s.cell b)
  exact ⟨fun h => arithmetic_of_alu_error (hover h), fun h => arithmetic_of_alu_ok (hprod h)⟩

end Sys2Proof.Machine

/-! PROOFS. The rules of 43_copy.md: `copy` to a register and to the device multiplexer. -/

namespace Sys2Proof.Machine

section

variable {a c : StoredReg} {dst : Reg} {v : Word} {s t : State} {e : Error}

theorem copyWrite_forbidden (h : c = .pc ∨ c = .ans) :
    copyWrite (.cell c) v s = .error (.forbidden .copy .dst (.cell c)) := if_pos h

theorem copyWrite_cell (hp : c ≠ .pc) (ha : c ≠ .ans) : copyWrite (.cell c) v s = .ok (s.setCell c v) :=
  if_neg (not_or.2 ⟨hp, ha⟩)

theorem copyWrite_out : copyWrite .out v s = outWrite v s := rfl

/-- `copy` reads its source first, so `out` there is its error whatever the destination is (R94, R108). -/
theorem exec_copy_src_out (dst : Reg) (s : State) :
    exec (.copy .out dst) s = .next (s.setStatus (.faulted (.forbidden .copy .src .out))) := rfl

/-- Past the source read, `copy` is the write of its destination (R108). -/
theorem exec_copy_cell (a : StoredReg) (dst : Reg) (s : State) :
    exec (.copy (.cell a) dst) s = orRaise s (copyWrite dst (s.cell a) s) .next := rfl

theorem exec_copy_of_write_ok (h : copyWrite dst (s.cell a) s = .ok t) : exec (.copy (.cell a) dst) s = .next t := by
  rw [exec_copy_cell, h, orRaise_ok]

theorem exec_copy_of_write_error (h : copyWrite dst (s.cell a) s = .error e) :
    exec (.copy (.cell a) dst) s = raise e s := by
  rw [exec_copy_cell, h, orRaise_error]

/-- A destination that `copy` forbids is recorded and nothing else changes (R93, R108). -/
theorem exec_copy_forbidden (h : c = .pc ∨ c = .ans) :
    exec (.copy (.cell a) (.cell c)) s = .next (s.setStatus (.faulted (.forbidden .copy .dst (.cell c)))) :=
  exec_copy_of_write_error (copyWrite_forbidden h)

/-- A sink that takes the value completes the `copy` with the multiplexer's state (R98, R108). -/
theorem exec_copy_out_of_ok (h : outWrite (s.cell a) s = .ok t) : exec (.copy (.cell a) .out) s = .next t :=
  exec_copy_of_write_ok (copyWrite_out.trans h)

/-- The absent device is a model fault, so the step gives no state (R99, D13, D16). -/
theorem exec_copy_out_of_noDevice {k : Slot} (h : outWrite (s.cell a) s = .error (.noDevice k)) :
    exec (.copy (.cell a) .out) s = .fault (.noDevice k) :=
  exec_copy_of_write_error (copyWrite_out.trans h)

end

/-- Settles O27: the source read comes first, then the destination's write is refused or is `setCell`. -/
theorem copyRegisterRule : Obligations.CopyRegisterRule := by
  intro src dst s
  refine ⟨?_, ?_, ?_⟩
  · rintro rfl
    exact exec_copy_src_out dst s
  · intro hsrc hdst
    cases src with
    | out => exact absurd rfl hsrc
    | cell a =>
      rcases hdst with rfl | rfl
      · exact exec_copy_forbidden (.inl rfl)
      · exact exec_copy_forbidden (.inr rfl)
  · rintro a c rfl rfl hp ha
    exact ⟨s.setCell c (s.cell a), exec_copy_of_write_ok (copyWrite_cell hp ha),
      State.cell_setCell_same s c (s.cell a), sameBut_setCell s (s.cell a) List.mem_cons_self⟩

/-- Settles O28: `copy` to `out` answers what the device multiplexer answers, sink by sink. -/
theorem copyOutRule : Obligations.CopyOutRule := by
  intro a s
  obtain ⟨hslot0, habsent0, hslot1, habsent1, hconsole⟩ := deviceMultiplexer s (s.cell a)
  exact ⟨fun h hd => exec_copy_out_of_ok (hslot0 h hd),
    fun h hd => exec_copy_out_of_ok (hslot1 h hd),
    fun h => exec_copy_out_of_ok (hconsole h),
    fun h hd => exec_copy_out_of_noDevice (habsent0 h hd),
    fun h hd => exec_copy_out_of_noDevice (habsent1 h hd)⟩

end Sys2Proof.Machine

/-! PROOFS. The rules of 44_jump.md: the execute phase of `jump` and its net effect with the advance. -/

namespace Sys2Proof.Machine

/-! ### The execute phase -/

theorem isZero_iff {v : Word} : isZero v = true ↔ v = 0#16 := decide_eq_true_iff

/-- `jump` reads `addr` first, so `out` there is its error whatever `cond` is (R16, R109). -/
theorem exec_jump_addr_out (cond : Reg) (s : State) :
    exec (.jump .out cond) s = .next (s.setStatus (.faulted (.pseudoRegister .out))) := rfl

theorem exec_jump_cond_out (a : StoredReg) (s : State) :
    exec (.jump (.cell a) .out) s = .next (s.setStatus (.faulted (.pseudoRegister .out))) := rfl

theorem exec_jump_cell (a c : StoredReg) (s : State) : exec (.jump (.cell a) (.cell c)) s =
    .next (if isZero (s.cell c) then s.setCell .pc (jumpTarget (s.cell a)) else s) := rfl

section

variable {m : Maps} {s u : State} {i : Instr} {a c : StoredReg}

theorem exec_jump_taken (h : s.cell c = 0#16) :
    exec (.jump (.cell a) (.cell c)) s = .next (s.setCell .pc (jumpTarget (s.cell a))) := by
  rw [exec_jump_cell, if_pos (isZero_iff.2 h)]

theorem exec_jump_notTaken (h : s.cell c ≠ 0#16) : exec (.jump (.cell a) (.cell c)) s = .next s := by
  rw [exec_jump_cell, if_neg (mt isZero_iff.1 h)]

/-! ### The net effect with the advance -/

/-- Of two stores to one register the later remains. -/
@[simp] theorem Regs.set_set (r : Regs) (d : StoredReg) (v w : Word) : (r.set d v).set d w = r.set d w := by
  cases d <;> rfl

@[simp] theorem State.setCell_setCell (s : State) (d : StoredReg) (v w : Word) :
    (s.setCell d v).setCell d w = s.setCell d w := by
  simp only [State.setCell, Regs.set_set]

/-- The advance brings a taken `jump` to the target rounded down (R109, R91). -/
theorem jumpTarget_add_four {v : Word} (h : 4 ≤ v.toNat) :
    jumpTarget v + 4#16 = BitVec.ofNat 16 (v.toNat - v.toNat % 4) := by
  rw [← jumpTarget_large h]
  simp only [BitVec.ofNat_add, BitVec.ofNat_toNat, BitVec.setWidth_eq]

/-- A step whose execute phase raises no error, and which does not halt, ends with the advance (R87, R91). -/
theorem stepWith_advances (hd : s.decodesTo m i) (he : exec i s = .next u) (hu : u.errorFree) (hi : i ≠ .halt)
    (hp : (u.cell .pc).toNat ≤ 65531) :
    ∃ t, stepWith m s = .next t ∧ sameMachine (u.setCell .pc (u.cell .pc + 4#16)) t :=
  ⟨_, (stepWith_of_exec_next hd he).trans (complete_advance_ok hu hi hp), sameMachine_nextSupply _⟩

/-- A taken `jump` leaves room for the advance, so its step always completes (R109). -/
theorem stepWith_jump_taken (hd : s.decodesTo m (.jump (.cell a) (.cell c))) (h : s.cell c = 0#16) :
    ∃ t, stepWith m s = .next t ∧ sameMachine (s.setCell .pc (jumpTarget (s.cell a) + 4#16)) t := by
  have ⟨hact, _⟩ := hd
  have hfree : s.errorFree := hact.1
  have hstep := stepWith_advances hd (exec_jump_taken h) hfree nofun
  rw [State.cell_setCell_same, State.setCell_setCell] at hstep
  exact hstep (jumpTarget_le _)

end

/-- Settles O29: the two operand reads in order, then the test of `cond` and the arithmetic of the target. -/
theorem jumpRule : Obligations.JumpRule := by
  intro addr cond s
  refine ⟨?_, ?_, ?_⟩
  · rintro rfl
    exact exec_jump_addr_out cond s
  · rintro haddr rfl
    cases addr with
    | out => exact absurd rfl haddr
    | cell a => exact exec_jump_cond_out a s
  · rintro a c rfl rfl
    refine ⟨exec_jump_notTaken, fun hz => ⟨_, exec_jump_taken hz, sameBut_setCell s _ List.mem_cons_self, ?_⟩⟩
    rw [State.cell_setCell_same]
    exact ⟨jumpTarget_small, jumpTarget_large⟩

/-- Settles O30: the advance acts on the `pc` that the execute phase left, and undoes the 4 a taken `jump` took off. -/
theorem jumpNetEffect : Obligations.JumpNetEffect := by
  intro m s a c hd
  have ⟨hact, _⟩ := hd
  have hfree : s.errorFree := hact.1
  refine ⟨fun hc hp => ?_, fun hc hp => ?_, fun hz ha => ?_, fun hz ha => ?_⟩
  · exact stepWith_advances hd (exec_jump_notTaken hc) hfree nofun hp
  · rw [stepWith_of_exec_next hd (exec_jump_notTaken hc)]
    exact complete_advance_overflow hfree nofun hp
  · rw [← jumpTarget_add_four ha]
    exact stepWith_jump_taken hd hz
  · have h := stepWith_jump_taken hd hz
    rwa [jumpTarget_small ha] at h

end Sys2Proof.Machine

/-! PROOFS. The rule of 45_put.md: `put` writes its immediate, or its destination is forbidden. -/

namespace Sys2Proof.Machine

section

variable {c : StoredReg} {dst : Reg} {v : Word} {s : State}

/-- `put` is the write of its destination under the `put` rules (R95, R110). -/
theorem exec_put (v : Word) (dst : Reg) (s : State) :
    exec (.put v dst) s = orRaise s (putWrite .put dst v s) .next := rfl

theorem exec_put_ok (hp : c ≠ .pc) (ha : c ≠ .ans) : exec (.put v (.cell c)) s = .next (s.setCell c v) := by
  rw [exec_put, putWrite_ok.2 ⟨c, rfl, hp, ha, rfl⟩, orRaise_ok]

/-- A destination that `put` forbids is recorded and nothing else changes (R93, R95). -/
theorem exec_put_forbidden (h : dst = .out ∨ dst = .cell .pc ∨ dst = .cell .ans) :
    exec (.put v dst) s = .next (s.setStatus (.faulted (.forbidden .put .dst dst))) := by
  rw [exec_put, putWrite_error.2 ⟨rfl, h⟩, orRaise_error]
  exact raise_next.2 ⟨rfl, rfl⟩

end

/-- Settles O31: the destination's write under the `put` rules is refused or is `setCell`. -/
theorem putRule : Obligations.PutRule := by
  intro v dst s
  refine ⟨fun hdst => exec_put_forbidden (or_rotate.1 (or_rotate.1 hdst)), ?_⟩
  rintro c rfl hp ha
  exact ⟨s.setCell c v, exec_put_ok hp ha, State.cell_setCell_same s c v, sameBut_setCell s v List.mem_cons_self⟩

end Sys2Proof.Machine

/-! PROOFS. The rules of 46_stack.md: the checks and the effect of `push` and of `pop`, and the two in a row. -/

namespace Sys2Proof.Machine

section

variable {a c : StoredReg} {src dst : Reg} {s : State}

/-! ### push -/

/-- `push` tests `sp` before it reads its source, so the full stack is its error whatever the source is (R111). -/
theorem exec_push_stackOverflow (h : s.cell .sp = 0#16) :
    exec (.push src) s = .next (s.setStatus (.faulted .stackOverflow)) := if_pos h

theorem exec_push_out (h : s.cell .sp ≠ 0#16) :
    exec (.push .out) s = .next (s.setStatus (.faulted (.forbidden .push .src .out))) := if_neg h

theorem exec_push_memOutOfRange (h : s.cell .sp = 65535#16) :
    exec (.push (.cell a)) s = .fault (.memOutOfRange 65535#16) := by
  simp [exec, execPush, h, raise_fault, Error.fault?]

theorem exec_push_spOutOfRange (h : s.cell .sp = 1#16) : exec (.push (.cell a)) s = .fault (.spOutOfRange 1#16) := by
  simp [exec, execPush, h, raise_fault, Error.fault?]

/-- Past its checks, `push` is the 2-byte store at `sp`, then `sp` goes down (R111). -/
theorem exec_push_store16 (hlow : 2 ≤ (s.cell .sp).toNat) (htop : (s.cell .sp).toNat ≤ 65534) :
    ∃ u, store16 (s.cell .sp) (s.cell a) s = .ok u ∧
      exec (.push (.cell a)) s = .next (u.setCell .sp (s.cell .sp - 2#16)) := by
  have h0 : s.cell .sp ≠ 0#16 := by bv_omega
  have h1 : s.cell .sp ≠ 1#16 := by bv_omega
  have h2 : s.cell .sp ≠ 65535#16 := by bv_omega
  exact ⟨_, store16_ok h2, exec_push_ok h0 h1 h2⟩

theorem toNat_sub_two {v : Word} (h : 2 ≤ v.toNat) : (v - 2#16).toNat + 2 = v.toNat := by bv_omega

/-! ### pop -/

theorem exec_pop_stackUnderflow (h : s.cell .sp = 65534#16) :
    exec (.pop dst) s = .next (s.setStatus (.faulted .stackUnderflow)) := if_pos h

theorem exec_pop_spOutOfRange (h : s.cell .sp = 65535#16) : exec (.pop dst) s = .fault (.spOutOfRange 65535#16) := by
  simp [exec, execPop, h, raise_fault, Error.fault?]

theorem load16_top (s : State) : load16 65535#16 s = .error (.memOutOfRange 65535#16) := load16_error.2 ⟨rfl, rfl⟩

/-- `sp` raised to the last address leaves no room for a 2-byte load, which comes before the destination's test (R112, D6). -/
theorem exec_pop_memOutOfRange (h : s.cell .sp = 65533#16) : exec (.pop dst) s = .fault (.memOutOfRange 65535#16) := by
  simp [exec, execPop, h, load16_top, raise_fault, Error.fault?]

theorem toNat_add_two {v : Word} (h : v.toNat ≤ 65532) : (v + 2#16).toNat = v.toNat + 2 := by bv_omega

/-- Past its checks and its load, `pop` is the write of its destination, over the raised `sp` (R112, C4). -/
theorem exec_pop_putWrite (h : (s.cell .sp).toNat ≤ 65532) :
    exec (.pop dst) s = orRaise (s.setCell .sp (s.cell .sp + 2#16))
      (putWrite .pop dst (s.byte ((s.cell .sp).toNat + 3) ++ s.byte ((s.cell .sp).toNat + 2))
        (s.setCell .sp (s.cell .sp + 2#16))) .next := by
  have h1 : s.cell .sp ≠ 65534#16 := by bv_omega
  have h2 : s.cell .sp ≠ 65535#16 := by bv_omega
  have h3 : s.cell .sp + 2#16 ≠ 65535#16 := by bv_omega
  simp only [exec, execPop, h1, h2, if_false, load16_ok h3, orRaise_ok, toNat_add_two h, State.byte_setCell]

theorem exec_pop_cell (h : (s.cell .sp).toNat ≤ 65532) (hp : c ≠ .pc) (ha : c ≠ .ans) :
    exec (.pop (.cell c)) s = .next ((s.setCell .sp (s.cell .sp + 2#16)).setCell c
      (s.byte ((s.cell .sp).toNat + 3) ++ s.byte ((s.cell .sp).toNat + 2))) := by
  rw [exec_pop_putWrite h, putWrite_ok.2 ⟨c, rfl, hp, ha, rfl⟩, orRaise_ok]

/-- A destination that `pop` forbids is recorded after `sp` is raised (R93, R112, C4). -/
theorem exec_pop_forbidden (h : (s.cell .sp).toNat ≤ 65532) (hdst : dst = .out ∨ dst = .cell .pc ∨ dst = .cell .ans) :
    exec (.pop dst) s =
      .next ((s.setCell .sp (s.cell .sp + 2#16)).setStatus (.faulted (.forbidden .pop .dst dst))) := by
  rw [exec_pop_putWrite h, putWrite_error.2 ⟨rfl, hdst⟩, orRaise_error]
  exact raise_next.2 ⟨rfl, rfl⟩

/-- Two register writes in a row change their two cells alone. -/
theorem sameBut_setCell_setCell (s : State) (c d : StoredReg) (v w : Word) :
    sameBut [c, d] s ((s.setCell c v).setCell d w) :=
  ⟨(sameApartMem_setCell s v (by simp)).trans (sameApartMem_setCell _ w (by simp)), fun _ => rfl⟩

end

/-! ### push, then pop -/

/-- Where `sp` is 2 below a 2-byte store, `pop` raises it to the store's address and puts the two bytes together again. -/
theorem exec_pop_stored {c : StoredReg} {addr v : Word} {s u : State} (hstore : store16 addr v s = .ok u)
    (hw : Memory.wf s.mem = true) (hlow : 2 ≤ addr.toNat) (hp : c ≠ .pc) (ha : c ≠ .ans) :
    exec (.pop (.cell c)) (u.setCell .sp (addr - 2#16)) = .next ((u.setCell .sp addr).setCell c v) := by
  obtain ⟨htop, -⟩ := store16_cases hstore
  have hsp : (addr - 2#16).toNat ≤ 65532 := by bv_omega
  have hhigh : (addr - 2#16).toNat + 3 = addr.toNat + 1 := by bv_omega
  rw [exec_pop_cell (by rwa [State.cell_setCell_same]) hp ha]
  simp only [State.cell_setCell_same, State.setCell_setCell, State.byte_setCell, BitVec.sub_add_cancel, toNat_sub_two hlow,
    hhigh, store16_byte_low hstore hw, store16_byte_high hstore hw, hiByte_append_loByte]

/-! ### The obligations -/

/-- Settles O32: each check in the rule's order, then the bytes and the frame of the 2-byte store at `sp`. -/
theorem pushRule : Obligations.PushRule := by
  intro src s
  refine ⟨exec_push_stackOverflow, ?_, ?_⟩
  · rintro h0 rfl
    exact exec_push_out h0
  · rintro a rfl
    refine ⟨exec_push_memOutOfRange, exec_push_spOutOfRange, fun hlow htop => ?_⟩
    obtain ⟨u, hstore, hpush⟩ := exec_push_store16 (a := a) hlow htop
    refine ⟨_, hpush, ?_, (sameApartMem_store16 _ hstore).trans (sameApartMem_setCell u _ List.mem_cons_self),
      fun hw => ⟨?_, ?_, fun b => store16_byte_ne hstore hw⟩⟩
    · rw [State.cell_setCell_same, toNat_sub_two hlow]
    · rw [State.byte_setCell, store16_byte_low hstore hw, toNat_loByte]
    · rw [State.byte_setCell, store16_byte_high hstore hw, toNat_hiByte]

/-- Settles O33: each check in the rule's order, then the destination's write with `sp` raised is refused or is `setCell`. -/
theorem popRule : Obligations.PopRule := by
  intro dst s
  refine ⟨exec_pop_stackUnderflow, exec_pop_spOutOfRange, exec_pop_memOutOfRange,
    fun hsp hdst => exec_pop_forbidden hsp (or_rotate.1 (or_rotate.1 hdst)), ?_⟩
  rintro c hsp rfl hp ha
  refine ⟨_, exec_pop_cell hsp hp ha, ?_, fun hc => ?_, sameBut_setCell_setCell s .sp c _ _⟩
  · rw [State.cell_setCell_same, toNat_append]
  · rw [State.cell_setCell_ne _ _ hc.symm, State.cell_setCell_same, toNat_add_two hsp]

/-- Settles O19: `push` stores at `sp` and lowers it, and the `pop` there comes to two register writes. -/
theorem pushThenPop : Obligations.PushThenPop := by
  intro s src dst hw hlow htop hp ha
  obtain ⟨u, hstore, hpush⟩ := exec_push_store16 (a := src) hlow htop
  refine ⟨_, _, hpush, exec_pop_stored hstore hw hlow hp ha, State.cell_setCell_same _ dst _, fun hdst => ?_,
    fun c hc hsp => ?_⟩
  · rw [State.cell_setCell_ne _ _ hdst.symm, State.cell_setCell_same]
  · rw [State.cell_setCell_ne _ _ hc, State.cell_setCell_ne _ _ hsp]
    exact (sameApartMem_store16 [] hstore).1 c List.not_mem_nil

end Sys2Proof.Machine

/-! PROOFS. The rules of 47_memory_access.md: the checks and the effect of `write` and of `read`. -/

namespace Sys2Proof.Machine

section

variable {a c : StoredReg} {dst : Reg} {s : State}

/-! ### write -/

/-- `write` reads its source first, so `out` there is its error whatever the address is (R94, R113). -/
theorem exec_write_src_out (addr : Reg) (s : State) :
    exec (.write .out addr) s = .next (s.setStatus (.faulted (.forbidden .write .src .out))) := rfl

theorem exec_write_addr_out (v : StoredReg) (s : State) :
    exec (.write (.cell v) .out) s = .next (s.setStatus (.faulted (.forbidden .write .addr .out))) := rfl

/-- Past its operand reads, `write` is the 2-byte store (R113). -/
theorem exec_write_cell (v a : StoredReg) (s : State) :
    exec (.write (.cell v) (.cell a)) s = orRaise s (store16 (s.cell a) (s.cell v) s) .next := rfl

/-- The last address leaves no room for the store's high byte (R36, D6). -/
theorem exec_write_memOutOfRange {v : StoredReg} (h : s.cell a = 65535#16) :
    exec (.write (.cell v) (.cell a)) s = .fault (.memOutOfRange 65535#16) := by
  rw [exec_write_cell, store16_error.2 ⟨h, rfl⟩, orRaise_error, h]
  exact raise_fault.2 rfl

/-! ### read -/

/-- `read` reads its address first, so `out` there is its error whatever the destination is (R94, R114). -/
theorem exec_read_addr_out (dst : Reg) (s : State) :
    exec (.read .out dst) s = .next (s.setStatus (.faulted (.forbidden .read .addr .out))) := rfl

/-- Past its address, `read` tests its destination and then loads (R114, D12). -/
theorem exec_read_cell (a : StoredReg) (dst : Reg) (s : State) :
    exec (.read (.cell a) dst) s =
      orRaise s (putDest .read dst) fun c => orRaise s (load16 (s.cell a) s) fun v => .next (s.setCell c v) := rfl

/-- A destination that `read` forbids is recorded and nothing else changes, whatever the address (R93, R114, D10). -/
theorem exec_read_forbidden (h : dst = .out ∨ dst = .cell .pc ∨ dst = .cell .ans) :
    exec (.read (.cell a) dst) s = .next (s.setStatus (.faulted (.forbidden .read .dst dst))) := by
  rw [exec_read_cell, putDest_error.2 ⟨rfl, h⟩, orRaise_error]
  exact raise_next.2 ⟨rfl, rfl⟩

/-- The last address leaves no room for the load's high byte (R36, D6). -/
theorem exec_read_memOutOfRange (h : s.cell a = 65535#16) (hp : c ≠ .pc) (ha : c ≠ .ans) :
    exec (.read (.cell a) (.cell c)) s = .fault (.memOutOfRange 65535#16) := by
  rw [exec_read_cell, putDest_ok.2 ⟨rfl, hp, ha⟩, orRaise_ok, h, load16_top, orRaise_error]
  exact raise_fault.2 rfl

end

/-! ### The obligations -/

/-- Settles O34: the operand reads in order, then the bytes and the frame of the 2-byte store. -/
theorem writeRule : Obligations.WriteRule := by
  intro src addr s
  refine ⟨?_, ?_, ?_⟩
  · rintro rfl
    exact exec_write_src_out addr s
  · rintro hsrc rfl
    cases src with
    | out => exact absurd rfl hsrc
    | cell v => exact exec_write_addr_out v s
  · rintro v a rfl rfl
    refine ⟨exec_write_memOutOfRange, fun htop => ?_⟩
    obtain ⟨t, hstore, hwrite⟩ := exec_write_store16 (v := v) htop
    refine ⟨t, hwrite, sameApartMem_store16 [] hstore, fun hw => ⟨?_, ?_, fun b => store16_byte_ne hstore hw⟩⟩
    · rw [store16_byte_low hstore hw, toNat_loByte]
    · rw [store16_byte_high hstore hw, toNat_hiByte]

/-- Settles O35: the address, then the destination, then the load, whose two bytes go to the destination. -/
theorem readRule : Obligations.ReadRule := by
  intro addr dst s
  refine ⟨?_, ?_, ?_⟩
  · rintro rfl
    exact exec_read_addr_out dst s
  · intro haddr hdst
    cases addr with
    | out => exact absurd rfl haddr
    | cell a => exact exec_read_forbidden (or_rotate.1 (or_rotate.1 hdst))
  · rintro a c rfl rfl hp ha
    refine ⟨fun htop => exec_read_memOutOfRange htop hp ha, fun htop => ?_⟩
    refine ⟨_, exec_read_ok htop hp ha, ?_, sameBut_setCell s _ List.mem_cons_self⟩
    rw [State.cell_setCell_same, toNat_append]

end Sys2Proof.Machine

/-! PROOFS. The model faults of 60_exceptions.md: which instruction's execute phase raises which of them, and where (R115,
rows 12, 13 and 15). -/

namespace Sys2Proof.Machine

section

variable {s : State} {f : Fault}

/-! ### Execute phases without a model fault -/

/-- A check whose errors are the document's own adds no model fault to its continuation. -/
theorem orRaise_ne_fault {α : Type} {x : Except Error α} {k : α → Result} (hx : ∀ e, x = .error e → e.fault? = none)
    (hk : ∀ a, k a ≠ .fault f) : orRaise s x k ≠ .fault f := by
  intro h
  rcases orRaise_fault.1 h with ⟨e, he, hf⟩ | ⟨a, -, ha⟩
  · rw [hx e he] at hf
    cases hf
  · exact hk a ha

/-- A failed write under the `put` rules is one of the document's own errors (R95). -/
theorem putWrite_error_fault {op : Mnemonic} {r : Reg} {v : Word} {e : Error} (h : putWrite op r v s = .error e) :
    e.fault? = none := by
  obtain ⟨rfl, -⟩ := putWrite_error.1 h
  rfl

theorem arithmetic_ne_fault (op : Mnemonic) (g : AluOp) (x y : Reg) : arithmetic op g x y s ≠ .fault f :=
  orRaise_ne_fault (fun _ => srcRead_error_fault) fun _ =>
    orRaise_ne_fault (fun _ => srcRead_error_fault) fun _ => orRaise_ne_fault (fun _ => alu_error_fault) fun _ => nofun

theorem execJump_ne_fault (addr cond : Reg) : execJump addr cond s ≠ .fault f :=
  orRaise_ne_fault (fun _ => readReg_error_fault) fun _ => orRaise_ne_fault (fun _ => readReg_error_fault) fun _ => nofun

theorem execPut_ne_fault (v : Word) (dst : Reg) : execPut v dst s ≠ .fault f :=
  orRaise_ne_fault (fun _ => putWrite_error_fault) fun _ => nofun

/-! ### Execute phases with one -/

/-- `copy` faults only where the multiplexer finds no device in the slot that `dvc` selects (R98, R99, D13). -/
theorem exec_copy_fault {src dst : Reg} (h : exec (.copy src dst) s = .fault f) :
    ∃ k a, f = .noDevice k ∧ src = .cell a ∧ dst = .out ∧ s.devices.present k = false ∧
      (k = .slot0 ∧ s.cell .dvc = 0#16 ∨ k = .slot1 ∧ s.cell .dvc = 1#16) := by
  cases src with
  | out => cases h
  | cell a =>
    rw [exec_copy_cell] at h
    obtain ⟨e, he, hf⟩ | ⟨t, -, ht⟩ := orRaise_fault.1 h
    · cases dst with
      | out =>
        obtain ⟨k, hk, habsent, rfl⟩ := outWrite_error he
        cases hf
        exact ⟨k, a, rfl, rfl, rfl, habsent, hk⟩
      | cell c =>
        by_cases hc : c = .pc ∨ c = .ans
        · rw [copyWrite_forbidden hc] at he
          cases he
          cases hf
        · rw [copyWrite_cell (not_or.1 hc).1 (not_or.1 hc).2] at he
          cases he
    · cases ht

/-- `push` faults only at the two values of `sp` from which it cannot go on (R111, D6, D7). -/
theorem exec_push_fault {src : Reg} (h : exec (.push src) s = .fault f) :
    ∃ a, src = .cell a ∧
      (f = .memOutOfRange 65535#16 ∧ s.cell .sp = 65535#16 ∨ f = .spOutOfRange 1#16 ∧ s.cell .sp = 1#16) := by
  by_cases h0 : s.cell .sp = 0#16
  · rw [exec_push_stackOverflow h0] at h
    cases h
  cases src with
  | out =>
    rw [exec_push_out h0] at h
    cases h
  | cell a =>
    refine ⟨a, rfl, ?_⟩
    by_cases htop : s.cell .sp = 65535#16
    · rw [exec_push_memOutOfRange htop] at h
      cases h
      exact .inl ⟨rfl, htop⟩
    by_cases h1 : s.cell .sp = 1#16
    · rw [exec_push_spOutOfRange h1] at h
      cases h
      exact .inr ⟨rfl, h1⟩
    · rw [exec_push_ok h0 h1 htop] at h
      cases h

/-- `pop` faults only at the two values of `sp` from which it cannot go on (R112, D6, D7). -/
theorem exec_pop_fault {dst : Reg} (h : exec (.pop dst) s = .fault f) :
    f = .memOutOfRange 65535#16 ∧ s.cell .sp = 65533#16 ∨ f = .spOutOfRange 65535#16 ∧ s.cell .sp = 65535#16 := by
  by_cases hempty : s.cell .sp = 65534#16
  · rw [exec_pop_stackUnderflow hempty] at h
    cases h
  by_cases htop : s.cell .sp = 65535#16
  · rw [exec_pop_spOutOfRange htop] at h
    cases h
    exact .inr ⟨rfl, htop⟩
  by_cases hlast : s.cell .sp = 65533#16
  · rw [exec_pop_memOutOfRange hlast] at h
    cases h
    exact .inl ⟨rfl, hlast⟩
  · rw [exec_pop_putWrite (by bv_omega)] at h
    exact absurd h (orRaise_ne_fault (fun _ => putWrite_error_fault) fun _ => nofun)

/-- `write` faults only at the last address (R113, D6). -/
theorem exec_write_fault {src addr : Reg} (h : exec (.write src addr) s = .fault f) :
    f = .memOutOfRange 65535#16 ∧ ∃ v a, src = .cell v ∧ addr = .cell a ∧ s.cell a = 65535#16 := by
  cases src with
  | out => cases h
  | cell v =>
    cases addr with
    | out => cases h
    | cell a =>
      by_cases htop : s.cell a = 65535#16
      · rw [exec_write_memOutOfRange htop] at h
        cases h
        exact ⟨rfl, v, a, rfl, rfl, htop⟩
      · rw [exec_write_ok htop] at h
        cases h

/-- `read` faults only at the last address, with a destination that is allowed (R114, D6, D12). -/
theorem exec_read_fault {addr dst : Reg} (h : exec (.read addr dst) s = .fault f) :
    f = .memOutOfRange 65535#16 ∧ ∃ a c, addr = .cell a ∧ dst = .cell c ∧ s.cell a = 65535#16 := by
  cases addr with
  | out => cases h
  | cell a =>
    rw [exec_read_cell] at h
    obtain ⟨e, he, hf⟩ | ⟨c, hc, h⟩ := orRaise_fault.1 h
    · obtain ⟨rfl, -⟩ := putDest_error.1 he
      cases hf
    obtain ⟨e, he, hf⟩ | ⟨v, -, h⟩ := orRaise_fault.1 h
    · obtain ⟨rfl, -⟩ := putDest_ok.1 hc
      obtain ⟨htop, rfl⟩ := load16_error.1 he
      rw [htop] at hf
      cases hf
      exact ⟨rfl, a, c, rfl, rfl, htop⟩
    · cases h

end

/-- Settles O45, by the dispatch of R90: five instructions have a fault of their own, the others none. -/
theorem execFaultReasons : Obligations.ExecFaultReasons := by
  intro i s f h
  cases i with
  | halt | noop => cases h
  | add x y => exact absurd h (arithmetic_ne_fault .add .add x y)
  | sub x y => exact absurd h (arithmetic_ne_fault .sub .sub x y)
  | mul x y => exact absurd h (arithmetic_ne_fault .mul .mul x y)
  | jump addr cond => exact absurd h (execJump_ne_fault addr cond)
  | put v dst => exact absurd h (execPut_ne_fault v dst)
  | copy src dst =>
    obtain ⟨k, a, hf, rfl, rfl, habsent, hk⟩ := exec_copy_fault h
    exact .inr (.inr (.inr ⟨k, a, hf, rfl, habsent, hk⟩))
  | push src =>
    obtain ⟨a, rfl, ⟨hf, hsp⟩ | ⟨hf, hsp⟩⟩ := exec_push_fault h
    · exact .inl ⟨hf, .inl ⟨a, rfl, hsp⟩⟩
    · exact .inr (.inl ⟨hf, a, rfl, hsp⟩)
  | pop dst =>
    obtain ⟨hf, hsp⟩ | ⟨hf, hsp⟩ := exec_pop_fault h
    · exact .inl ⟨hf, .inr (.inl ⟨dst, rfl, hsp⟩)⟩
    · exact .inr (.inr (.inl ⟨hf, dst, rfl, hsp⟩))
  | write src addr =>
    obtain ⟨hf, v, a, rfl, rfl, htop⟩ := exec_write_fault h
    exact .inl ⟨hf, .inr (.inr (.inl ⟨v, a, rfl, htop⟩))⟩
  | read addr dst =>
    obtain ⟨hf, a, c, rfl, rfl, htop⟩ := exec_read_fault h
    exact .inl ⟨hf, .inr (.inr (.inr ⟨a, c, rfl, htop⟩))⟩

end Sys2Proof.Machine

/-! PROOFS. The rules of 70_reset_and_hazards.md: reset, load, and the loading of source text. -/

namespace Sys2Proof.Machine

/-! ### Reset -/

/-- Reset leaves memory empty and `pc` at 0, whatever the launch values and the supply (R131). -/
theorem State.inv_launch (l : Launch) (d : DeviceSlots) (ds : List DeviceSlots) : (State.launch l d ds).Inv :=
  ⟨Memory.wf_nil, rfl⟩

/-- Settles O47: `State.reset` is one of the states after reset. -/
theorem invAfterReset : Obligations.InvAfterReset := ⟨State.inv_launch _ _ _, State.inv_launch⟩

/-- Settles O50, field by field. -/
theorem resetValues : Obligations.ResetValues := fun l d ds =>
  ⟨rfl, rfl, rfl, rfl, State.byte_launch l d ds, rfl, rfl, rfl, rfl, rfl, rfl, rfl, rfl, rfl, rfl, rfl, rfl⟩

/-! ### Load -/

theorem sameApartMem_setMem (cells : List StoredReg) (s : State) (m : Memory) : sameApartMem cells s (s.setMem m) :=
  .refl cells s

section

variable {program : List Byte} {s : State}

theorem load_ok (h : program.length < 65536) :
    load program s = .ok (s.setMem (Memory.writeBytes s.mem 0 program)) := if_pos (fitsMemory_iff.2 h)

theorem load_tooLarge (h : 65536 ≤ program.length) : load program s = .error .programTooLarge :=
  if_neg (mt fitsMemory_iff.1 (Nat.not_lt.2 h))

end

/-- Settles O52: `load` is the store of the program's bytes from address 0 on. -/
theorem loadFillsMemory : Obligations.LoadFillsMemory := by
  intro program s hw
  refine ⟨load_tooLarge, fun hfits => ?_⟩
  have hend : 0 + program.length ≤ Config.memorySize := by
    simp only [Config.memorySize]
    omega
  have hbyte := Memory.read_writeBytes program hw hend
  refine ⟨_, load_ok hfits, Memory.wf_writeBytes program hw hend, sameApartMem_setMem [] s _, fun a ha => ?_, fun a ha => ?_⟩
  · exact (hbyte a).trans (dif_pos (by omega))
  · exact (hbyte a).trans (dif_neg (by omega))

/-! ### The loading of source text -/

section

variable {m : Maps} {source : Text} {s : State}

theorem loadSource_of_assembled {p : Program} (h : assemble source = .ok p) :
    loadSource m source s = load (encodeProgram m p.instrs) s := by rw [loadSource, h]

theorem loadSource_of_compileError {e : CompileError} (h : assemble source = .error e) :
    loadSource m source s = .error (.compile e) := by rw [loadSource, h]

end

/-- An instruction's encoding is one word of 4 bytes (R53, R66). -/
theorem length_encodeProgram (m : Maps) (is : List Instr) : (encodeProgram m is).length = 4 * is.length := by
  have hword (i : Instr) : (encode m i).bytes.length = 4 := rfl
  simp only [encodeProgram, List.length_flatMap, hword, List.map_const', List.sum_replicate, smul_eq_mul, Nat.mul_comm]

/-- Settles O56, by the assembler's two outcomes. -/
theorem loadSourceRule : Obligations.LoadSourceRule := fun m _ _ =>
  ⟨fun _ => loadSource_of_compileError, fun p h => ⟨loadSource_of_assembled h, length_encodeProgram m p.instrs⟩⟩

end Sys2Proof.Machine
